-- ==== Sys2Proof/Word.lean ====
section
/-! DEFINITION. The two data types of MIN16 (00_scope R7: a word is 16 bits, a byte 8) and the value
functions of 00_scope R10. -/

namespace Sys2Proof

/-- A full word: every register value, address and instruction word (R7, R10). -/
abbrev Word := BitVec 16

/-- A byte: one cell of memory (R7, R50). -/
abbrev Byte := BitVec 8

/-- `u(v)` of R10: the value as an unsigned integer, 0 to 65535. -/
def uval (v : Word) : Int := (v.toNat : Int)

/-- `s(v)` of R10: the value as a two's-complement integer, -32768 to 32767. PRESUMED (the spec's own
passage from general knowledge, G1; log 26). -/
def sval (v : Word) : Int := v.toInt

/-- `trunc16(n)` of R10: the integer modulo 2^16. -/
def trunc16 (n : Int) : Word := BitVec.ofInt 16 n

/-- Bit 0 of an address: the alignment question of R55 and R58. -/
def isOdd (a : Word) : Bool := a.getLsbD 0

end Sys2Proof
end

