-- ==== Sys2Proof/Config.lean ====
section
/-! DEFINITION. The implementation parameters of 00_scope R8 with the alternatives
93_implementation_defined part 1 lists (log 27), and the free values of the model (log 3, log 4). The
fields' defaults are the spec's defaults. The host's machine runs under `Sys2Proof.Machine.config`; under
any other parameters the machine is `Sys2Proof.Machine.coreWith` (10_state R20: arguments of the step
relation). -/

namespace Sys2Proof

/-- A memory as plain data: (address, byte) pairs of the cells that have been written (20_memory R50;
log 4). -/
abbrev Memory := List Host.Cell

/-- `BYTE_ORDER` (R8, D1, U20). -/
inductive ByteOrder where
  /-- bits 7:0 of a word at the lower address (20_memory R53) -/
  | little
  /-- bits 15:8 of a word at the lower address (U20) -/
  | big
  deriving DecidableEq, Repr

/-- `MEM_ORG` (R8, D2, U18). -/
inductive MemOrg where
  /-- instructions and data share one memory (20_memory R51) -/
  | unified
  /-- fetches read a second memory, fixed when the program is loaded (R51, U18) -/
  | harvard (instructions : Memory)
  deriving DecidableEq, Repr

/-- `MISALIGNED_DATA` (R8, D3, U10): a word access at an odd address. -/
inductive MisalignedData where
  /-- raises `MisalignedAccess` (20_memory R58) -/
  | fault
  /-- two byte accesses at `ea` and `ea + 1` in little-endian order (U10) -/
  | split
  /-- access at `ea & 0xFFFE` (U10) -/
  | ignoreBit0
  deriving DecidableEq, Repr

/-- `MISALIGNED_FETCH` (R8, D4, U11): a fetch at an odd `pc`. -/
inductive MisalignedFetch where
  /-- raises `MisalignedFetch` (20_memory R55) -/
  | fault
  /-- fetch at `pc & 0xFFFE` (U11) -/
  | ignoreBit0
  deriving DecidableEq, Repr

/-- `SHIFT_AMOUNT` (R8, D9, U8). -/
inductive ShiftAmount where
  /-- the low 4 bits of the operand (30_encoding R89) -/
  | mask4
  /-- an operand above 15 raises `ShiftAmountRange` (U8) -/
  | refuse
  deriving DecidableEq, Repr

/-- `FLAG_MODEL` (R8, D10, U2). -/
inductive FlagModel where
  /-- any value after every instruction (10_state R33) -/
  | unconstrained
  /-- the definition of 93_implementation_defined G2, which the spec takes from general knowledge and
  makes no part of its rules: PRESUMED -/
  | conventional
  deriving DecidableEq, Repr

/-- `RESERVED_FIELD` (R8, D12, D13, U4, U5). -/
inductive ReservedField where
  /-- a non-zero `sbz` or unused field is a reserved word (30_encoding R98) -/
  | fault
  /-- `sbz` and the unused field are ignored (U4, U5); register numbers 14 and 15 stay reserved (U6) -/
  | ignore
  deriving DecidableEq, Repr

/-- `MEM_INIT` (R8, D16, U13): a byte that neither the loader nor a store has written. -/
inductive MemInit where
  /-- a free value, fixed per address (10_state R39, U13) -/
  | unspecified
  /-- zero (U13) -/
  | zero
  deriving DecidableEq, Repr

/-- `END_OF_RUN` (R8, D17). -/
inductive EndOfRun where
  /-- a control transfer to itself that changes nothing (70_reset_and_hazards R255) -/
  | jumpToSelf
  /-- a designated stop address (R255, last convention) -/
  | stopAddress (a : Word)
  deriving DecidableEq, Repr

/-- The parameters of R8, each with the spec's default. -/
structure Config where
  /-- `ADDR_BITS`, D2 (log 8): the width of a byte address. What another value than 16 does is the model's
  choice (log 32). -/
  addrBits : Nat := 16
  /-- D1 (log 7) -/
  byteOrder : ByteOrder := .little
  /-- D2 (log 8) -/
  memOrg : MemOrg := .unified
  /-- D3 (log 9) -/
  misalignedData : MisalignedData := .fault
  /-- D4 (log 10) -/
  misalignedFetch : MisalignedFetch := .fault
  /-- D9 (log 15) -/
  shiftAmount : ShiftAmount := .mask4
  /-- D7 (log 13): what JALR adds to `pc`; the literal reading is 0 -/
  jalrLink : Word := 2
  /-- D16 (log 5) -/
  resetPc : Word := 0x0000
  /-- D17 (log 19) -/
  endOfRun : EndOfRun := .jumpToSelf
  /-- D10 (log 3) -/
  flagModel : FlagModel := .unconstrained
  /-- D12, D13 (log 17) -/
  reservedField : ReservedField := .fault
  /-- D16 (log 4) -/
  memInit : MemInit := .unspecified
  deriving DecidableEq, Repr

/-- The parameters at the spec's defaults, for which every rule and test vector is stated (R8). -/
def Config.spec : Config := {}

/-- FREE VALUE (log 3): what the `n`-th instruction leaves in `fl` (10_state R33: "a free draw at every
step"). It has no body, so nothing can be proved of it. -/
opaque Config.freeFlags : Nat → Word

/-- FREE VALUE (log 4): what a byte of the memory `M` (under `MEM_ORG = harvard`, of the data array) that
nothing has written reads as, one unknown value per address (10_state R39; U13: "any value", fixed until
written). -/
opaque Config.unwrittenByte : Nat → Byte

/-- FREE VALUE (log 4): the same for the instruction array that exists only under `MEM_ORG = harvard`
(U18): a value of its own, in no relation to the data array's. -/
opaque Config.unwrittenInstructionByte : Nat → Byte

end Sys2Proof
end

