-- ==== Sys2Proof/Syntax.lean ====
section
/-! DEFINITION. The registers an operand can name and the 46 instructions (10_state R21; 30_encoding
R82 to R85, R91, R95), with the assembler text of 30_encoding R101. -/

namespace Sys2Proof

/-- The 14 general purpose registers, numbers 0 to 13 (10_state R21). Numbers 14 (`pc`) and 15 (`fl`)
are not operands (R25), so no term of this type stands for them. -/
inductive Reg where
  /-- register 0: The constant value 0 -/
  | r0
  /-- register 1: `at`, Assembler Temporary (`at` is a keyword of Lean) -/
  | at_
  /-- register 2: Stack Pointer -/
  | sp
  /-- register 3: Frame Pointer -/
  | fp
  /-- register 4: Return Address -/
  | ra
  /-- register 5: General Use -/
  | rb
  /-- register 6: General Use -/
  | rc
  /-- register 7: `rd`, General Use (not the field of that name) -/
  | rd_
  /-- register 8: Saved Temporary -/
  | s0
  /-- register 9: Saved Temporary -/
  | s1
  /-- register 10: Temporary -/
  | t0
  /-- register 11: Temporary -/
  | t1
  /-- register 12: High Part -/
  | hi
  /-- register 13: Low Part -/
  | lo
  deriving DecidableEq, Repr

/-- The 46 instructions (R95), each with the operands its format carries (R91). `rd` and `rs` are the
spec's field names: `rd` is also the first source of every ALU instruction, the base of SW and SB, the
jump address of JR and JALR and the source of MTHI and MTLO; `rs` of JALR receives the link. -/
inductive Instr where
  /-- ADD $rd, $rs (R121) -/
  | add (rd rs : Reg)
  /-- SUB $rd, $rs (R122) -/
  | sub (rd rs : Reg)
  /-- MUL $rd, $rs (R124) -/
  | mul (rd rs : Reg)
  /-- SLT $rd, $rs (R126) -/
  | slt (rd rs : Reg)
  /-- ADDU $rd, $rs (R128) -/
  | addu (rd rs : Reg)
  /-- SUBU $rd, $rs (R129) -/
  | subu (rd rs : Reg)
  /-- MULU $rd, $rs (R130) -/
  | mulu (rd rs : Reg)
  /-- SLTU $rd, $rs (R131) -/
  | sltu (rd rs : Reg)
  /-- AND $rd, $rs (R132) -/
  | and (rd rs : Reg)
  /-- OR $rd, $rs (R133) -/
  | or (rd rs : Reg)
  /-- XOR $rd, $rs (R134) -/
  | xor (rd rs : Reg)
  /-- NOR $rd, $rs (R135) -/
  | nor (rd rs : Reg)
  /-- SLL $rd, $rs (R137) -/
  | sll (rd rs : Reg)
  /-- SRL $rd, $rs (R138) -/
  | srl (rd rs : Reg)
  /-- SRA $rd, $rs (R139) -/
  | sra (rd rs : Reg)
  /-- ROTL $rd, $rs (R140) -/
  | rotl (rd rs : Reg)
  /-- ADDI $rd, imm (R151) -/
  | addi (rd : Reg) (imm : BitVec 6)
  /-- SUBI $rd, imm (R152) -/
  | subi (rd : Reg) (imm : BitVec 6)
  /-- MULI $rd, imm (R153) -/
  | muli (rd : Reg) (imm : BitVec 6)
  /-- SLTI $rd, imm (R154) -/
  | slti (rd : Reg) (imm : BitVec 6)
  /-- ADDIU $rd, imm (R155) -/
  | addiu (rd : Reg) (imm : BitVec 6)
  /-- SUBIU $rd, imm (R156) -/
  | subiu (rd : Reg) (imm : BitVec 6)
  /-- MULIU $rd, imm (R157) -/
  | muliu (rd : Reg) (imm : BitVec 6)
  /-- SLTIU $rd, imm (R158) -/
  | sltiu (rd : Reg) (imm : BitVec 6)
  /-- ANDI $rd, imm (R159) -/
  | andi (rd : Reg) (imm : BitVec 6)
  /-- ORI $rd, imm (R160) -/
  | ori (rd : Reg) (imm : BitVec 6)
  /-- XORI $rd, imm (R161) -/
  | xori (rd : Reg) (imm : BitVec 6)
  /-- NORI $rd, imm (R162) -/
  | nori (rd : Reg) (imm : BitVec 6)
  /-- SLLI $rd, imm (R163) -/
  | slli (rd : Reg) (imm : BitVec 6)
  /-- SRLI $rd, imm (R164) -/
  | srli (rd : Reg) (imm : BitVec 6)
  /-- SRAI $rd, imm (R165) -/
  | srai (rd : Reg) (imm : BitVec 6)
  /-- ROTLI $rd, imm (R166) -/
  | rotli (rd : Reg) (imm : BitVec 6)
  /-- J target (R181) -/
  | j (target : BitVec 10)
  /-- JAL target (R182) -/
  | jal (target : BitVec 10)
  /-- JR $rd (R183) -/
  | jr (rd : Reg)
  /-- JALR $rd, $rs (R184) -/
  | jalr (rd rs : Reg)
  /-- BEQ $rd, $rs, offset (R185); registers 0 to 7 only (R24) -/
  | beq (rd rs : Reg) (offset : BitVec 4)
  /-- BNE $rd, $rs, offset (R186); registers 0 to 7 only (R24) -/
  | bne (rd rs : Reg) (offset : BitVec 4)
  /-- LW $rd, $rs, offset (R201); registers 0 to 7 only (R24) -/
  | lw (rd rs : Reg) (offset : BitVec 4)
  /-- LB $rd, $rs, offset (R202); registers 0 to 7 only (R24) -/
  | lb (rd rs : Reg) (offset : BitVec 4)
  /-- SW $rd, $rs, offset (R203); registers 0 to 7 only (R24) -/
  | sw (rd rs : Reg) (offset : BitVec 4)
  /-- SB $rd, $rs, offset (R204); registers 0 to 7 only (R24) -/
  | sb (rd rs : Reg) (offset : BitVec 4)
  /-- MFHI $rd (R208) -/
  | mfhi (rd : Reg)
  /-- MFLO $rd (R209) -/
  | mflo (rd : Reg)
  /-- MTHI $rd (R210) -/
  | mthi (rd : Reg)
  /-- MTLO $rd (R211) -/
  | mtlo (rd : Reg)
  deriving DecidableEq, Repr

/-- The register's name in assembler text (R21, R101). -/
def Reg.name : Reg → String
  | .r0 => "r0"
  | .at_ => "at"
  | .sp => "sp"
  | .fp => "fp"
  | .ra => "ra"
  | .rb => "rb"
  | .rc => "rc"
  | .rd_ => "rd"
  | .s0 => "s0"
  | .s1 => "s1"
  | .t0 => "t0"
  | .t1 => "t1"
  | .hi => "hi"
  | .lo => "lo"

/-- The column "Saved" of the Register List (R21, R26): software convention, no rule of the machine
reads it. -/
def Reg.saved : Reg → Bool
  | .sp | .fp | .ra | .s0 | .s1 => true
  | .r0 | .at_ | .rb | .rc | .rd_ | .t0 | .t1 | .hi | .lo => false

/-- `MNEMONIC $rd, $rs` of R101. -/
def asmRegs (m : String) (rd rs : Reg) : String := m ++ " $" ++ rd.name ++ ", $" ++ rs.name

/-- `MNEMONIC $rd, imm` of R101. -/
def asmImm (m : String) (rd : Reg) (imm : Int) : String := m ++ " $" ++ rd.name ++ ", " ++ toString imm

/-- `MNEMONIC $rd, $rs, offset` of R101; the offset is a signed number of words. -/
def asmOffset (m : String) (rd rs : Reg) (offset : BitVec 4) : String :=
  asmRegs m rd rs ++ ", " ++ toString offset.toInt

/-- The assembler text of an instruction (R101, spellings of R93): immediates of op 0x4 as signed
numbers, of op 0x5 to 0x7 as unsigned ones, numbers in decimal. -/
def Instr.assembly : Instr → String
  | .add rd rs => asmRegs "ADD" rd rs
  | .sub rd rs => asmRegs "SUB" rd rs
  | .mul rd rs => asmRegs "MUL" rd rs
  | .slt rd rs => asmRegs "SLT" rd rs
  | .addu rd rs => asmRegs "ADDU" rd rs
  | .subu rd rs => asmRegs "SUBU" rd rs
  | .mulu rd rs => asmRegs "MULU" rd rs
  | .sltu rd rs => asmRegs "SLTU" rd rs
  | .and rd rs => asmRegs "AND" rd rs
  | .or rd rs => asmRegs "OR" rd rs
  | .xor rd rs => asmRegs "XOR" rd rs
  | .nor rd rs => asmRegs "NOR" rd rs
  | .sll rd rs => asmRegs "SLL" rd rs
  | .srl rd rs => asmRegs "SRL" rd rs
  | .sra rd rs => asmRegs "SRA" rd rs
  | .rotl rd rs => asmRegs "ROTL" rd rs
  | .addi rd imm => asmImm "ADDI" rd imm.toInt
  | .subi rd imm => asmImm "SUBI" rd imm.toInt
  | .muli rd imm => asmImm "MULI" rd imm.toInt
  | .slti rd imm => asmImm "SLTI" rd imm.toInt
  | .addiu rd imm => asmImm "ADDIU" rd imm.toNat
  | .subiu rd imm => asmImm "SUBIU" rd imm.toNat
  | .muliu rd imm => asmImm "MULIU" rd imm.toNat
  | .sltiu rd imm => asmImm "SLTIU" rd imm.toNat
  | .andi rd imm => asmImm "ANDI" rd imm.toNat
  | .ori rd imm => asmImm "ORI" rd imm.toNat
  | .xori rd imm => asmImm "XORI" rd imm.toNat
  | .nori rd imm => asmImm "NORI" rd imm.toNat
  | .slli rd imm => asmImm "SLLI" rd imm.toNat
  | .srli rd imm => asmImm "SRLI" rd imm.toNat
  | .srai rd imm => asmImm "SRAI" rd imm.toNat
  | .rotli rd imm => asmImm "ROTLI" rd imm.toNat
  | .j target => "J " ++ toString target.toNat
  | .jal target => "JAL " ++ toString target.toNat
  | .jr rd => "JR $" ++ rd.name
  | .jalr rd rs => asmRegs "JALR" rd rs
  | .beq rd rs offset => asmOffset "BEQ" rd rs offset
  | .bne rd rs offset => asmOffset "BNE" rd rs offset
  | .lw rd rs offset => asmOffset "LW" rd rs offset
  | .lb rd rs offset => asmOffset "LB" rd rs offset
  | .sw rd rs offset => asmOffset "SW" rd rs offset
  | .sb rd rs offset => asmOffset "SB" rd rs offset
  | .mfhi rd => "MFHI $" ++ rd.name
  | .mflo rd => "MFLO $" ++ rd.name
  | .mthi rd => "MTHI $" ++ rd.name
  | .mtlo rd => "MTLO $" ++ rd.name

/-- The two-instruction sequence the source prints for each HI/LO move (R103); an assembler's
alternative, not what the encoded instruction does (R212). Every other instruction stands for
itself. -/
def Instr.expansion : Instr → List Instr
  | .mfhi rd => [.and rd .r0, .add rd .hi]
  | .mflo rd => [.and rd .r0, .add rd .lo]
  | .mthi rd => [.and .hi .r0, .add .hi rd]
  | .mtlo rd => [.and .lo .r0, .add .lo rd]
  | i => [i]

end Sys2Proof
end

