-- ==== Sys2Proof/WellFormed.lean ====
section
/-! DEFINITION. Which instruction terms an instruction word can hold: the O-type register fields are
3 bits wide (10_state R24, 30_encoding R84). -/

namespace Sys2Proof

/-- Registers 0 to 7, the ones a 3-bit field can name (R24). -/
def Reg.low : Reg → Bool
  | .r0 | .at_ | .sp | .fp | .ra | .rb | .rc | .rd_ => true
  | .s0 | .s1 | .t0 | .t1 | .hi | .lo => false

/-- The term fits its format: both registers of an O-type instruction are among 0 to 7. The operands
of the other formats hold only values their fields can hold, by their types. -/
def Instr.wellFormed : Instr → Bool
  | .beq rd rs _ | .bne rd rs _ => rd.low && rs.low
  | .lw rd rs _ | .lb rd rs _ | .sw rd rs _ | .sb rd rs _ => rd.low && rs.low
  | .add .. | .sub .. | .mul .. | .slt .. | .addu .. | .subu .. | .mulu .. | .sltu .. => true
  | .and .. | .or .. | .xor .. | .nor .. | .sll .. | .srl .. | .sra .. | .rotl .. => true
  | .addi .. | .subi .. | .muli .. | .slti .. | .addiu .. | .subiu .. | .muliu .. | .sltiu .. => true
  | .andi .. | .ori .. | .xori .. | .nori .. | .slli .. | .srli .. | .srai .. | .rotli .. => true
  | .j .. | .jal .. | .jr .. | .jalr .. => true
  | .mfhi .. | .mflo .. | .mthi .. | .mtlo .. => true

end Sys2Proof
end

