-- ==== Sys2Proof/Decode.lean ====
section
/-! DEFINITION. Instruction words: the fields of the four formats (30_encoding R82 to R85), the decoder
(R94, total, rejecting by name) and the encoder (R82 to R85, R95). -/

namespace Sys2Proof

/-- Why a word is reserved (R94, R96, R98). -/
inductive Reject where
  /-- op 0x8, 0x9, 0xE or 0xF: "reserved for extension" (R96) -/
  | reservedOpcode (op : BitVec 4)
  /-- op 0xB with func 2 or 3: a blank cell of the mnemonic map (R96) -/
  | unassignedFunction (func : BitVec 2)
  /-- `sbz` of a two-register R-type word is not zero (R98 a) -/
  | sbzNonZero (sbz : BitVec 2)
  /-- bits 5:0 of a one-register R-type word (unused `rs`, `sbz`) are not zero (R98 a, b) -/
  | unusedNonZero (bits : BitVec 6)
  /-- a 4-bit register field holds 14 or 15 (R98 c) -/
  | reservedRegister (number : BitVec 4)
  /-- fewer than the two bytes of a word were given (R80) -/
  | truncated
  deriving DecidableEq, Repr

/-! ## Register numbers (10_state R21) -/

/-- The register's number (R21). -/
def Reg.number : Reg → BitVec 4
  | .r0 => 0
  | .at_ => 1
  | .sp => 2
  | .fp => 3
  | .ra => 4
  | .rb => 5
  | .rc => 6
  | .rd_ => 7
  | .s0 => 8
  | .s1 => 9
  | .t0 => 10
  | .t1 => 11
  | .hi => 12
  | .lo => 13

/-- The register a 4-bit field names (R91); 14 and 15 name none (R98). -/
def Reg.ofNumber (f : BitVec 4) : Option Reg :=
  match f.toNat with
  | 0 => some .r0
  | 1 => some .at_
  | 2 => some .sp
  | 3 => some .fp
  | 4 => some .ra
  | 5 => some .rb
  | 6 => some .rc
  | 7 => some .rd_
  | 8 => some .s0
  | 9 => some .s1
  | 10 => some .t0
  | 11 => some .t1
  | 12 => some .hi
  | 13 => some .lo
  | _ => none

/-- The register a 3-bit field names, 0 to 7 (R84, R91). -/
def Reg.ofLow (f : BitVec 3) : Reg :=
  match f.toNat with
  | 0 => .r0
  | 1 => .at_
  | 2 => .sp
  | 3 => .fp
  | 4 => .ra
  | 5 => .rb
  | 6 => .rc
  | _ => .rd_

/-! ## Fields of a word (R80, R82 to R85) -/

/-- Bits 15:12, the operation code. -/
def opField (w : Word) : BitVec 4 := w.extractLsb' 12 4
/-- Bits 11:10, the function code. -/
def funcField (w : Word) : BitVec 2 := w.extractLsb' 10 2
/-- Bits 15:14, the operation group (R81). -/
def groupField (w : Word) : BitVec 2 := w.extractLsb' 14 2
/-- Bits 13:10, the ALU function code of op 0x0 to 0x7 (R99). -/
def aluField (w : Word) : BitVec 4 := w.extractLsb' 10 4
/-- Bits 9:6, `rd` of R-type and I-type. -/
def rdField (w : Word) : BitVec 4 := w.extractLsb' 6 4
/-- Bits 5:2, `rs` of R-type. -/
def rsField (w : Word) : BitVec 4 := w.extractLsb' 2 4
/-- Bits 1:0, `sbz` of R-type. -/
def sbzField (w : Word) : BitVec 2 := w.extractLsb' 0 2
/-- Bits 5:0: `imm` of I-type, and the unused bits of a one-register R-type word. -/
def immField (w : Word) : BitVec 6 := w.extractLsb' 0 6
/-- Bits 9:7, `rd` of O-type. -/
def rdLowField (w : Word) : BitVec 3 := w.extractLsb' 7 3
/-- Bits 6:4, `rs` of O-type. -/
def rsLowField (w : Word) : BitVec 3 := w.extractLsb' 4 3
/-- Bits 3:0, `offset` of O-type. -/
def offsetField (w : Word) : BitVec 4 := w.extractLsb' 0 4
/-- Bits 9:0, `target` of J-type. -/
def targetField (w : Word) : BitVec 10 := w.extractLsb' 0 10

/-! ## The formats -/

/-- The four instruction formats (R82 to R85). -/
inductive Format where
  /-- two registers (R82) -/
  | r
  /-- one register, one immediate (R83) -/
  | i
  /-- two registers, one offset (R84) -/
  | o
  /-- jump target (R85) -/
  | j
  deriving DecidableEq, Repr

/-- The format of a word, from `op` and, for op 0xA and 0xB, `func` (R86); none where no format is
assigned. -/
def formatOf (w : Word) : Option Format :=
  match (opField w).toNat, (funcField w).toNat with
  | 0x0, _ | 0x1, _ | 0x2, _ | 0x3, _ => some .r
  | 0x4, _ | 0x5, _ | 0x6, _ | 0x7, _ => some .i
  | 0xA, 0 | 0xA, 1 => some .j
  | 0xA, _ => some .r
  | 0xB, 0 | 0xB, 1 => some .o
  | 0xC, _ => some .o
  | 0xD, _ => some .r
  | _, _ => none

/-- A 4-bit register field: the register it names, or the word is reserved (R98 c). -/
def regOperand (f : BitVec 4) : Except Reject Reg :=
  match Reg.ofNumber f with
  | some r => .ok r
  | none => .error (.reservedRegister f)

/-- R-type with two registers (R82): reserved if `sbz` is not zero (unless `RESERVED_FIELD = ignore`,
U4) or a register field is 14 or 15. -/
def decodeTwoRegs (rf : ReservedField) (mk : Reg → Reg → Instr) (w : Word) : Except Reject Instr :=
  if sbzField w ≠ 0 ∧ rf = .fault then .error (.sbzNonZero (sbzField w))
  else match regOperand (rdField w), regOperand (rsField w) with
    | .ok rd, .ok rs => .ok (mk rd rs)
    | .error e, _ => .error e
    | .ok _, .error e => .error e

/-- R-type with one register (JR and the HI/LO moves): bits 5:0 must be zero (unless
`RESERVED_FIELD = ignore`, U5). -/
def decodeOneReg (rf : ReservedField) (mk : Reg → Instr) (w : Word) : Except Reject Instr :=
  if immField w ≠ 0 ∧ rf = .fault then .error (.unusedNonZero (immField w))
  else (regOperand (rdField w)).map mk

/-- I-type (R83). -/
def decodeImm (mk : Reg → BitVec 6 → Instr) (w : Word) : Except Reject Instr :=
  (regOperand (rdField w)).map fun rd => mk rd (immField w)

/-- O-type (R84): every field value is legal. -/
def decodeOffset (mk : Reg → Reg → BitVec 4 → Instr) (w : Word) : Instr :=
  mk (.ofLow (rdLowField w)) (.ofLow (rsLowField w)) (offsetField w)

/-! ## The decoder (R93, R94) -/

/-- `decode(w)` of R94 under a treatment of the reserved fields. The map from `op` and `func` is
R93's. -/
def decodeWith (rf : ReservedField) (w : Word) : Except Reject Instr :=
  match (opField w).toNat, (funcField w).toNat with
  | 0x0, 0 => decodeTwoRegs rf .add w
  | 0x0, 1 => decodeTwoRegs rf .sub w
  | 0x0, 2 => decodeTwoRegs rf .mul w
  | 0x0, 3 => decodeTwoRegs rf .slt w
  | 0x1, 0 => decodeTwoRegs rf .addu w
  | 0x1, 1 => decodeTwoRegs rf .subu w
  | 0x1, 2 => decodeTwoRegs rf .mulu w
  | 0x1, 3 => decodeTwoRegs rf .sltu w
  | 0x2, 0 => decodeTwoRegs rf .and w
  | 0x2, 1 => decodeTwoRegs rf .or w
  | 0x2, 2 => decodeTwoRegs rf .xor w
  | 0x2, 3 => decodeTwoRegs rf .nor w
  | 0x3, 0 => decodeTwoRegs rf .sll w
  | 0x3, 1 => decodeTwoRegs rf .srl w
  | 0x3, 2 => decodeTwoRegs rf .sra w
  | 0x3, 3 => decodeTwoRegs rf .rotl w
  | 0x4, 0 => decodeImm .addi w
  | 0x4, 1 => decodeImm .subi w
  | 0x4, 2 => decodeImm .muli w
  | 0x4, 3 => decodeImm .slti w
  | 0x5, 0 => decodeImm .addiu w
  | 0x5, 1 => decodeImm .subiu w
  | 0x5, 2 => decodeImm .muliu w
  | 0x5, 3 => decodeImm .sltiu w
  | 0x6, 0 => decodeImm .andi w
  | 0x6, 1 => decodeImm .ori w
  | 0x6, 2 => decodeImm .xori w
  | 0x6, 3 => decodeImm .nori w
  | 0x7, 0 => decodeImm .slli w
  | 0x7, 1 => decodeImm .srli w
  | 0x7, 2 => decodeImm .srai w
  | 0x7, 3 => decodeImm .rotli w
  | 0xA, 0 => .ok (.j (targetField w))
  | 0xA, 1 => .ok (.jal (targetField w))
  | 0xA, 2 => decodeOneReg rf .jr w
  | 0xA, 3 => decodeTwoRegs rf .jalr w
  | 0xB, 0 => .ok (decodeOffset .beq w)
  | 0xB, 1 => .ok (decodeOffset .bne w)
  | 0xB, _ => .error (.unassignedFunction (funcField w))
  | 0xC, 0 => .ok (decodeOffset .lw w)
  | 0xC, 1 => .ok (decodeOffset .lb w)
  | 0xC, 2 => .ok (decodeOffset .sw w)
  | 0xC, 3 => .ok (decodeOffset .sb w)
  | 0xD, 0 => decodeOneReg rf .mfhi w
  | 0xD, 1 => decodeOneReg rf .mflo w
  | 0xD, 2 => decodeOneReg rf .mthi w
  | 0xD, 3 => decodeOneReg rf .mtlo w
  | _, _ => .error (.reservedOpcode (opField w))

/-- `decode(w)` of R94 at the spec's default `RESERVED_FIELD = fault`. -/
def decode (w : Word) : Except Reject Instr := decodeWith .fault w

/-- The word of two bytes in little-endian order (20_memory R53, R54): the first byte is bits 7:0. -/
def joinLittle (first second : Byte) : Word := second ++ first

/-- Decoding from the bytes of memory, lowest address first (R54, R80): the instruction and the bytes
after it. -/
def decodeBytes : List Byte → Except Reject (Instr × List Byte)
  | b0 :: b1 :: rest => (decode (joinLittle b0 b1)).map fun i => (i, rest)
  | _ => .error .truncated

/-- The instruction the decoder reads from the table's number `w` of `nbits` bits: the word is laid
out as memory holds it (R54), its low byte first; bits above `nbits` are zero. -/
def decodeTableWord (nbits w : Nat) : Option Instr :=
  let word := w % 2 ^ nbits
  match decodeBytes [BitVec.ofNat 8 word, BitVec.ofNat 8 (word / 256)] with
  | .ok (i, _) => some i
  | .error _ => none

/-! ## The encoder (R82 to R85, R95) -/

/-- R-type `[op] [func] [rd] [rs] [sbz]` (R82). -/
def encodeTwoRegs (op : BitVec 4) (func : BitVec 2) (rd rs : Reg) : Word :=
  op ++ func ++ rd.number ++ rs.number ++ (0 : BitVec 2)

/-- R-type with the `rs` field unused, zero (R82, R98 b). -/
def encodeOneReg (op : BitVec 4) (func : BitVec 2) (rd : Reg) : Word :=
  op ++ func ++ rd.number ++ (0 : BitVec 6)

/-- I-type `[op] [func] [rd] [imm]` (R83). -/
def encodeImm (op : BitVec 4) (func : BitVec 2) (rd : Reg) (imm : BitVec 6) : Word :=
  op ++ func ++ rd.number ++ imm

/-- O-type `[op] [func] [rd] [rs] [offset]` with 3-bit register fields (R84). -/
def encodeOffset (op : BitVec 4) (func : BitVec 2) (rd rs : Reg) (offset : BitVec 4) : Word :=
  op ++ func ++ rd.number.setWidth 3 ++ rs.number.setWidth 3 ++ offset

/-- J-type `[op] [func] [target]` (R85). -/
def encodeTarget (op : BitVec 4) (func : BitVec 2) (target : BitVec 10) : Word :=
  op ++ func ++ target

/-- The word of an instruction (R93, R95). -/
def encode : Instr → Word
  | .add rd rs => encodeTwoRegs 0x0 0 rd rs
  | .sub rd rs => encodeTwoRegs 0x0 1 rd rs
  | .mul rd rs => encodeTwoRegs 0x0 2 rd rs
  | .slt rd rs => encodeTwoRegs 0x0 3 rd rs
  | .addu rd rs => encodeTwoRegs 0x1 0 rd rs
  | .subu rd rs => encodeTwoRegs 0x1 1 rd rs
  | .mulu rd rs => encodeTwoRegs 0x1 2 rd rs
  | .sltu rd rs => encodeTwoRegs 0x1 3 rd rs
  | .and rd rs => encodeTwoRegs 0x2 0 rd rs
  | .or rd rs => encodeTwoRegs 0x2 1 rd rs
  | .xor rd rs => encodeTwoRegs 0x2 2 rd rs
  | .nor rd rs => encodeTwoRegs 0x2 3 rd rs
  | .sll rd rs => encodeTwoRegs 0x3 0 rd rs
  | .srl rd rs => encodeTwoRegs 0x3 1 rd rs
  | .sra rd rs => encodeTwoRegs 0x3 2 rd rs
  | .rotl rd rs => encodeTwoRegs 0x3 3 rd rs
  | .addi rd imm => encodeImm 0x4 0 rd imm
  | .subi rd imm => encodeImm 0x4 1 rd imm
  | .muli rd imm => encodeImm 0x4 2 rd imm
  | .slti rd imm => encodeImm 0x4 3 rd imm
  | .addiu rd imm => encodeImm 0x5 0 rd imm
  | .subiu rd imm => encodeImm 0x5 1 rd imm
  | .muliu rd imm => encodeImm 0x5 2 rd imm
  | .sltiu rd imm => encodeImm 0x5 3 rd imm
  | .andi rd imm => encodeImm 0x6 0 rd imm
  | .ori rd imm => encodeImm 0x6 1 rd imm
  | .xori rd imm => encodeImm 0x6 2 rd imm
  | .nori rd imm => encodeImm 0x6 3 rd imm
  | .slli rd imm => encodeImm 0x7 0 rd imm
  | .srli rd imm => encodeImm 0x7 1 rd imm
  | .srai rd imm => encodeImm 0x7 2 rd imm
  | .rotli rd imm => encodeImm 0x7 3 rd imm
  | .j target => encodeTarget 0xA 0 target
  | .jal target => encodeTarget 0xA 1 target
  | .jr rd => encodeOneReg 0xA 2 rd
  | .jalr rd rs => encodeTwoRegs 0xA 3 rd rs
  | .beq rd rs offset => encodeOffset 0xB 0 rd rs offset
  | .bne rd rs offset => encodeOffset 0xB 1 rd rs offset
  | .lw rd rs offset => encodeOffset 0xC 0 rd rs offset
  | .lb rd rs offset => encodeOffset 0xC 1 rd rs offset
  | .sw rd rs offset => encodeOffset 0xC 2 rd rs offset
  | .sb rd rs offset => encodeOffset 0xC 3 rd rs offset
  | .mfhi rd => encodeOneReg 0xD 0 rd
  | .mflo rd => encodeOneReg 0xD 1 rd
  | .mthi rd => encodeOneReg 0xD 2 rd
  | .mtlo rd => encodeOneReg 0xD 3 rd

/-- The bytes of an instruction as memory holds them, lowest address first (R54, R80). -/
def encodeBytes (i : Instr) : List Byte :=
  [(encode i).extractLsb' 0 8, (encode i).extractLsb' 8 8]

end Sys2Proof
end

