-- ==== Sys2Proof/Machine/State.lean ====
section
/-! DEFINITION. The state of the machine (10_state R20), the ways a step can stop (60_exceptions R222)
and the state after reset (10_state R39). -/

namespace Sys2Proof.Machine

/-- The model faults (60_exceptions R222): each says "the documentation does not tell what the hardware
does here" and leaves every register, flag, memory cell and `pc` as they were (R221). SAFE: hardware may
go on, and no claim of a next state is then provable. -/
inductive Fault where
  /-- Raised by the fetch of any step whose `pc` is odd (20_memory R55, 60_exceptions R224). SAFE
  (log 10). -/
  | misalignedFetch (pc : Word)
  /-- Raised by the decoding of any step that fetches a reserved word (30_encoding R97, 60_exceptions
  R223). SAFE (log 17). -/
  | illegalInstruction (pc word : Word)
  /-- Raised by LW and SW whose effective address is odd (20_memory R58, 60_exceptions R225). SAFE
  (log 9). -/
  | misalignedAccess (pc ea : Word)
  /-- Raised by the shifts and rotates whose amount exceeds 15, only under `SHIFT_AMOUNT = refuse`
  (93_implementation_defined part 2); never at the spec's defaults. SAFE (log 15). -/
  | shiftAmountRange (pc amount : Word)
  deriving DecidableEq, Repr

/-- Refusals. No meaning of this model refuses. -/
inductive Refusal where
  /-- Raised by an arm of `exec` whose instruction has no meaning yet; no arm is left so. SAFE. -/
  | notModelled (mnemonic : String)
  deriving DecidableEq, Repr

/-- The machine status beside the architectural state (10_state R38). -/
inductive Status where
  /-- the machine executes -/
  | run
  /-- a step has raised the fault; there is no further step (60_exceptions R221) -/
  | fault (f : Fault)
  deriving DecidableEq, Repr

/-- The stored general registers, numbers 1 to 13 (10_state R21, R23). Register 0 is the constant 0
(R22): it has no cell, and `State.reg` and `State.setReg` give it its behaviour (log 31). -/
structure Regs where
  /-- register 1, `at` -/
  at_ : Word
  /-- register 2 -/
  sp : Word
  /-- register 3 -/
  fp : Word
  /-- register 4 -/
  ra : Word
  /-- register 5 -/
  rb : Word
  /-- register 6 -/
  rc : Word
  /-- register 7, `rd` -/
  rd_ : Word
  /-- register 8 -/
  s0 : Word
  /-- register 9 -/
  s1 : Word
  /-- register 10 -/
  t0 : Word
  /-- register 11 -/
  t1 : Word
  /-- register 12 -/
  hi : Word
  /-- register 13 -/
  lo : Word
  deriving DecidableEq, Repr

/-- The canonical form of a memory: addresses strictly rising and inside the 2^16 cells of 20_memory
R50. A listed cell has been written; an unlisted one holds no value of its own (log 4), so no entry
can equal what an unlisted address holds and equal memories are equal lists. -/
abbrev Memory.wf (m : Memory) : Prop :=
  m.Pairwise (fun c d => c.1 < d.1) ∧ ∀ c ∈ m, c.1 < 2 ^ Config.spec.addrBits

/-- The whole state (10_state R20), and the model's own counter of free flag values. -/
structure State where
  /-- general registers 1 to 13 (R21 to R23, R35) -/
  regs : Regs
  /-- the program counter, register number 14 (R27) -/
  pc : Word
  /-- the status flag register, register number 15 (R31) -/
  fl : Word
  /-- the memory `M` (R37) -/
  mem : Memory
  /-- the machine status (R38) -/
  status : Status
  /-- the MODEL's own: how many free values `fl` has been given (log 3) -/
  draws : Nat
  deriving DecidableEq, Repr

/-- Every stored register at the value the model names for reset: zero. DESIGN CHOICE, UNSAFE: the spec
leaves registers 1 to 13 unspecified (R39; log 1). -/
def Regs.reset : Regs :=
  { at_ := 0, sp := 0, fp := 0, ra := 0, rb := 0, rc := 0, rd_ := 0, s0 := 0, s1 := 0, t0 := 0
    t1 := 0, hi := 0, lo := 0 }

/-- The machine right after reset under given parameters (10_state R39, 70_reset_and_hazards R250): `pc`
at `RESET_PC`, status `run`, no byte of memory written. The registers, `fl` (log 2) and `draws` hold named
values. -/
def State.resetWith (cfg : Config) : State :=
  { regs := Regs.reset, pc := cfg.resetPc, fl := 0, mem := [], status := .run, draws := 0 }

/-- The machine right after reset, at the spec's default parameters (R8, R39). -/
def State.reset : State := State.resetWith Config.spec

end Sys2Proof.Machine
end

