-- ==== Sys2Proof/Machine/Ops.lean ====
section
/-! DEFINITION. The named operations over registers, `pc` and memory (00_scope R11, 20_memory R50 to
R58), the fetch (R54, R55) and the one shared operation by which a step stops in a fault (60_exceptions
R221). MIN16 has no architectural trap: nothing is saved, no handler is entered and there is no return
(R220, R228), so taking a fault is stopping. -/

namespace Sys2Proof.Machine

/-- The outcome of an instruction or a step. -/
abbrev Result := Host.Outcome State Fault Refusal

/-- The parameters the machine runs under: the spec's defaults (00_scope R8). -/
def config : Config := Config.spec

/-! ## Registers (10_state R21 to R23) -/

/-- The stored value of a register; register 0 is the constant 0 (R22). -/
def Regs.get (x : Regs) : Reg → Word
  | .r0 => 0
  | .at_ => x.at_
  | .sp => x.sp
  | .fp => x.fp
  | .ra => x.ra
  | .rb => x.rb
  | .rc => x.rc
  | .rd_ => x.rd_
  | .s0 => x.s0
  | .s1 => x.s1
  | .t0 => x.t0
  | .t1 => x.t1
  | .hi => x.hi
  | .lo => x.lo

/-- The registers after a write; a write to register 0 is discarded (R22). -/
def Regs.set (x : Regs) (r : Reg) (v : Word) : Regs :=
  match r with
  | .r0 => x
  | .at_ => { x with at_ := v }
  | .sp => { x with sp := v }
  | .fp => { x with fp := v }
  | .ra => { x with ra := v }
  | .rb => { x with rb := v }
  | .rc => { x with rc := v }
  | .rd_ => { x with rd_ := v }
  | .s0 => { x with s0 := v }
  | .s1 => { x with s1 := v }
  | .t0 => { x with t0 := v }
  | .t1 => { x with t1 := v }
  | .hi => { x with hi := v }
  | .lo => { x with lo := v }

/-- `x[i]` of R11. -/
def State.reg (s : State) (r : Reg) : Word := s.regs.get r

/-- `x[i] <- v` of R11. -/
def State.setReg (s : State) (r : Reg) (v : Word) : State := { s with regs := s.regs.set r v }

/-- `pc <- t` of R11. -/
def State.setPc (s : State) (t : Word) : State := { s with pc := t }

/-- The state with another memory. -/
def State.setMem (s : State) (m : Memory) : State := { s with mem := m }

/-- `trunc16(pc + 2)`: the address of the next instruction (10_state R28, R29). -/
def State.nextPc (s : State) : Word := trunc16 (uval s.pc + 2)

/-! ## Taking a fault (60_exceptions R221) -/

/-- `raise f` of R11: the step stops in the fault. -/
def raise (f : Fault) : Result := .fault f

/-- The state a faulting step leaves: the status becomes `fault(f)` and nothing else changes (R221). -/
def State.stopped (s : State) (f : Fault) : State := { s with status := .fault f }

/-! ## Bytes of memory (20_memory R50) -/

/-- The byte last written at an address; none where nothing has written (log 4). -/
def Memory.byteAt : Memory → Nat → Option Byte
  | [], _ => none
  | c :: m, a => if c.1 = a then some c.2 else Memory.byteAt m a

/-- The memory after one byte is written, in the canonical form `Memory.wf`. -/
def Memory.put : Memory → Nat → Byte → Memory
  | [], a, v => [(a, v)]
  | c :: m, a, v =>
    if a < c.1 then (a, v) :: c :: m
    else if a = c.1 then (a, v) :: m
    else c :: Memory.put m a v

/-- The cell an address selects: its low `ADDR_BITS` bits (R8). At 16 bits every address has a cell of its
own; that a narrower address ignores the bits above is the model's choice (DESIGN CHOICE, log 32). -/
def cellOf (cfg : Config) (a : Word) : Nat := a.toNat % 2 ^ cfg.addrBits

/-- What a byte of `M` that nothing has written reads as: a free value fixed per cell (10_state R39, U13),
or zero under `MEM_INIT = zero`. -/
def initialByte (cfg : Config) (a : Word) : Byte :=
  match cfg.memInit with
  | .unspecified => Config.unwrittenByte (cellOf cfg a)
  | .zero => 0

/-- The same for the instruction array of `MEM_ORG = harvard` (U18), whose free values are its own. -/
def initialInstructionByte (cfg : Config) (a : Word) : Byte :=
  match cfg.memInit with
  | .unspecified => Config.unwrittenInstructionByte (cellOf cfg a)
  | .zero => 0

/-- `MemRead(a, 1)` (20_memory R56): the last value written to the cell or its initial value (R50). -/
def readByte (cfg : Config) (m : Memory) (a : Word) : Byte :=
  (Memory.byteAt m (cellOf cfg a)).getD (initialByte cfg a)

/-- One byte of the instruction array of `MEM_ORG = harvard` (U18). -/
def readInstructionByte (cfg : Config) (m : Memory) (a : Word) : Byte :=
  (Memory.byteAt m (cellOf cfg a)).getD (initialInstructionByte cfg a)

/-- `MemWrite(a, 1, v)` (20_memory R57). -/
def writeByte (cfg : Config) (m : Memory) (a : Word) (v : Byte) : Memory :=
  Memory.put m (cellOf cfg a) v

/-- The byte a load of the machine reads at `a`. -/
def State.byte (s : State) (a : Word) : Byte := readByte config s.mem a

/-! ## Words of memory (20_memory R53, R56, R57) -/

/-- `trunc16(a + 1)`: the second cell of a 2-byte access (R52). -/
def secondByte (a : Word) : Word := trunc16 (uval a + 1)

/-- The order of the bytes of the word at `a`. An odd address reaches an access only under
`MISALIGNED_DATA = split`, whose two bytes are in little-endian order (U10). -/
def orderAt (cfg : Config) (a : Word) : ByteOrder := if isOdd a then .little else cfg.byteOrder

/-- The word whose bytes stand at the lower and the upper address. -/
def joinBytes (order : ByteOrder) (lower upper : Byte) : Word :=
  match order with
  | .little => upper ++ lower
  | .big => lower ++ upper

/-- The byte of a word that stands at the lower address. -/
def lowerByte (order : ByteOrder) (v : Word) : Byte :=
  match order with
  | .little => v.extractLsb' 0 8
  | .big => v.extractLsb' 8 8

/-- The byte of a word that stands at the upper address. -/
def upperByte (order : ByteOrder) (v : Word) : Byte :=
  match order with
  | .little => v.extractLsb' 8 8
  | .big => v.extractLsb' 0 8

/-- The word at `a` of a memory whose bytes `read` gives (R53, R56). -/
def wordOf (cfg : Config) (read : Word → Byte) (a : Word) : Word :=
  joinBytes (orderAt cfg a) (read a) (read (secondByte a))

/-- `MemRead(a, 2)` (R56). -/
def readWord (cfg : Config) (m : Memory) (a : Word) : Word := wordOf cfg (readByte cfg m) a

/-- `MemWrite(a, 2, v)` (R57). -/
def writeWord (cfg : Config) (m : Memory) (a v : Word) : Memory :=
  writeByte cfg (writeByte cfg m a (lowerByte (orderAt cfg a) v)) (secondByte a)
    (upperByte (orderAt cfg a) v)

/-- The memory after the words of a program are placed from an address on, each in the byte order of a
fetch (70_reset_and_hazards R252). -/
def placeWords (cfg : Config) (m : Memory) (a : Word) : List Word → Memory
  | [] => m
  | w :: ws => placeWords cfg (writeWord cfg m a w) (a + 2) ws

/-- The address with bit 0 cleared, `a & 0xFFFE` (U10, U11). -/
def clearBit0 (a : Word) : Word := a &&& 0xFFFE

/-- The address a word access (LW, SW) goes to: the effective address if it is even; if it is odd,
`MisalignedAccess` (20_memory R58) or what `MISALIGNED_DATA` says (U10). -/
def wordAddress (cfg : Config) (pc ea : Word) : Except Fault Word :=
  if isOdd ea then
    match cfg.misalignedData with
    | .fault => .error (.misalignedAccess pc ea)
    | .split => .ok ea
    | .ignoreBit0 => .ok (clearBit0 ea)
  else .ok ea

/-! ## The fetch (20_memory R51, R54, R55) -/

/-- The instruction word at `a`: from `M`, or under `MEM_ORG = harvard` from the instruction array (R51,
R54, U18). -/
def fetchWord (cfg : Config) (s : State) (a : Word) : Word :=
  match cfg.memOrg with
  | .unified => readWord cfg s.mem a
  | .harvard instructions => wordOf cfg (readInstructionByte cfg instructions) a

/-- The first two lines of R13: the alignment check of `pc` (R55, or what `MISALIGNED_FETCH` says, U11)
and the fetch of the word (R54). Under `MISALIGNED_FETCH = ignore_bit0` only the address of the fetch has
bit 0 cleared, as U11 says; that the instruction then runs with `pc` still odd (its link, its branch base
and its `pc + 2` are odd too) is the model's choice (DESIGN CHOICE, log 33). -/
def fetch (cfg : Config) (s : State) : Except Fault Word :=
  if isOdd s.pc then
    match cfg.misalignedFetch with
    | .fault => .error (.misalignedFetch s.pc)
    | .ignoreBit0 => .ok (fetchWord cfg s (clearBit0 s.pc))
  else .ok (fetchWord cfg s s.pc)

/-! ## One step over a given meaning of the instructions (00_scope R13) -/

/-- One step (R13): check `pc`, fetch, decode, execute; the order fixes the priority of the faults
(60_exceptions R227). A machine whose status is `fault(f)` has no further step (R221): it answers the
same fault. -/
def cycle (cfg : Config) (execute : Instr → State → Result) (s : State) : Result :=
  match s.status with
  | .fault f => .fault f
  | .run =>
    match fetch cfg s with
    | .error f => raise f
    | .ok w =>
      match decodeWith cfg.reservedField w with
      | .error _ => raise (.illegalInstruction s.pc w)
      | .ok i => execute i s

/-- The state an outcome leaves: in a fault the status becomes `fault(f)` and nothing else changes
(60_exceptions R221, 10_state R38). -/
def State.after (s : State) : Result → State
  | .next t => t
  | .fault f => s.stopped f
  | .refused _ => s

end Sys2Proof.Machine
end

