-- ==== Sys2Proof/Machine/Operands.lean ====
section
/-! DEFINITION. Operand forms: extension of the fields (30_encoding R87, R88, R90), the shift amount
(R89), the effective address (43_load_store_move R200) and the branch target (42_jump_branch R187). -/

namespace Sys2Proof.Machine

/-- `sext_16(imm)`: immediates of op 0x4 and of SRAI (R87). -/
def signedImm (imm : BitVec 6) : Word := imm.signExtend 16

/-- `zext_16(imm)`: immediates of op 0x5 and 0x6 and of SLLI, SRLI, ROTLI (R87). -/
def unsignedImm (imm : BitVec 6) : Word := imm.setWidth 16

/-- `boff = trunc16(sext_16(offset) << 1)`: a signed number of words as a number of bytes, -16 to +14
(R88). -/
def byteOffset (offset : BitVec 4) : Word := offset.signExtend 16 <<< 1

/-- `zext_16(target)`: a jump target is an unsigned number of bytes (R90). -/
def jumpTarget (target : BitVec 10) : Word := target.setWidth 16

/-- `sh = operand[3:0]`: the low 4 bits of the amount operand, 0 to 15 (R89, R136, R167; D9, log 15). -/
def shiftAmount (operand : Word) : Nat := (operand.extractLsb' 0 4).toNat

/-- `ea = trunc16(u(x[base]) + s(boff))` (R200, 20_memory R52). -/
def State.effectiveAddress (s : State) (base : Reg) (offset : BitVec 4) : Word :=
  trunc16 (uval (s.reg base) + sval (byteOffset offset))

/-- `trunc16(pc + boff)`, from the address of the branch itself (R187; D26, log 12). -/
def State.branchTarget (s : State) (offset : BitVec 4) : Word :=
  trunc16 (uval s.pc + sval (byteOffset offset))

end Sys2Proof.Machine
end

