-- ==== Sys2Proof/Machine/Alu.lean ====
section
/-! DEFINITION. The sixteen operations of the ALU, multiplier and shifter (30_encoding R99) and the
result each computes from its two 16-bit operands (40_alu_rtype R121 to R140; the immediate forms
compute the same with the extended immediate as second operand, 41_alu_itype R150). -/

namespace Sys2Proof.Machine

/-- The operations of R99, in the order of their function codes. -/
inductive AluFn where
  | add | sub | mul | slt | addu | subu | mulu | sltu
  | and | or | xor | nor | sll | srl | sra | rotl
  deriving DecidableEq, Repr

/-- ADD, ADDU: `trunc16(u(a) + u(b))` (R121, R128). -/
def sumOf (a b : Word) : Word := trunc16 (uval a + uval b)

/-- SUB, SUBU: `trunc16(u(a) - u(b))`, first operand minus second (R122, R129). -/
def differenceOf (a b : Word) : Word := trunc16 (uval a - uval b)

/-- MUL: `trunc16(s(a) * s(b))`, the low 16 bits of the product (R124; D11, log 16). -/
def signedProductOf (a b : Word) : Word := trunc16 (sval a * sval b)

/-- MULU: `trunc16(u(a) * u(b))` (R130). -/
def unsignedProductOf (a b : Word) : Word := trunc16 (uval a * uval b)

/-- SLT: 1 if `s(a) < s(b)`, else 0 (R126). -/
def signedLessOf (a b : Word) : Word := if sval a < sval b then 0x0001 else 0x0000

/-- SLTU: 1 if `u(a) < u(b)`, else 0 (R131). -/
def unsignedLessOf (a b : Word) : Word := if uval a < uval b then 0x0001 else 0x0000

/-- SLL: `trunc16(u(a) * 2^sh)` (R137). -/
def shiftLeftOf (a b : Word) : Word := trunc16 (uval a * 2 ^ shiftAmount b)

/-- SRL: `floor(u(a) / 2^sh)` (R138). -/
def shiftRightOf (a b : Word) : Word := trunc16 (Int.fdiv (uval a) (2 ^ shiftAmount b))

/-- SRA: `trunc16(floor(s(a) / 2^sh))` (R139; 90_conflicts C6). -/
def shiftRightArithOf (a b : Word) : Word := trunc16 (Int.fdiv (sval a) (2 ^ shiftAmount b))

/-- ROTL: `if sh = 0 then a else a[15-sh:0] ++ a[15:16-sh]` (R140): the low bits moved up by `sh` and
the `sh` bits that leave at the top re-entering below. -/
def rotateLeftOf (a b : Word) : Word :=
  if shiftAmount b = 0 then a else (a <<< shiftAmount b) ||| (a >>> (16 - shiftAmount b))

/-- The result of an operation on its two operands. -/
def AluFn.result (f : AluFn) (a b : Word) : Word :=
  match f with
  | .add => sumOf a b
  | .sub => differenceOf a b
  | .mul => signedProductOf a b
  | .slt => signedLessOf a b
  | .addu => sumOf a b
  | .subu => differenceOf a b
  | .mulu => unsignedProductOf a b
  | .sltu => unsignedLessOf a b
  | .and => a &&& b
  | .or => a ||| b
  | .xor => a ^^^ b
  | .nor => ~~~(a ||| b)
  | .sll => shiftLeftOf a b
  | .srl => shiftRightOf a b
  | .sra => shiftRightArithOf a b
  | .rotl => rotateLeftOf a b

/-- The function code of an operation, `op[1:0] ++ func` (R99). -/
def AluFn.code : AluFn → BitVec 4
  | .add => 0b0000
  | .sub => 0b0001
  | .mul => 0b0010
  | .slt => 0b0011
  | .addu => 0b0100
  | .subu => 0b0101
  | .mulu => 0b0110
  | .sltu => 0b0111
  | .and => 0b1000
  | .or => 0b1001
  | .xor => 0b1010
  | .nor => 0b1011
  | .sll => 0b1100
  | .srl => 0b1101
  | .sra => 0b1110
  | .rotl => 0b1111

/-- The operations whose second operand is an amount (R89). -/
def AluFn.isShift : AluFn → Bool
  | .sll | .srl | .sra | .rotl => true
  | .add | .sub | .mul | .slt | .addu | .subu | .mulu | .sltu => false
  | .and | .or | .xor | .nor => false

end Sys2Proof.Machine
end

