-- ==== Sys2Proof/Machine/Flags.lean ====
section
/-! DEFINITION. The status flag register `fl` (10_state R31 to R33): its named bits, the free value every
instruction leaves in it (log 3), and the conventional definition 93_implementation_defined G2 offers
under `FLAG_MODEL = conventional` (PRESUMED: the spec's own general knowledge, no part of its rules). -/

namespace Sys2Proof.Machine

/-- The five named flags (R31). -/
inductive Flag where
  /-- Zero Flag -/
  | zf
  /-- Sign Flag -/
  | sf
  /-- Carry Flag -/
  | cf
  /-- Overflow Flag -/
  | of
  /-- Equal Flag -/
  | eq
  deriving DecidableEq, Repr

/-- The flag's bit of `fl` (R31). -/
def Flag.bit : Flag → Nat
  | .zf => 0
  | .sf => 1
  | .cf => 2
  | .of => 3
  | .eq => 4

/-- The value of a named flag. -/
def State.flag (s : State) (f : Flag) : Bool := s.fl.getLsbD f.bit

/-! ## The conventional definition (G2), used only under `FLAG_MODEL = conventional` -/

/-- CF: carry of an add, borrow of a subtract, a product of 2^16 or more, the last bit shifted out (0
when the amount is 0); 0 for the other operations (G2). -/
def AluFn.carry (f : AluFn) (a b : Word) : Bool :=
  match f with
  | .add | .addu => decide (uval a + uval b ≥ 2 ^ 16)
  | .sub | .subu => decide (uval a < uval b)
  | .mul | .mulu => decide (uval a * uval b ≥ 2 ^ 16)
  | .sll => shiftAmount b != 0 && a.getLsbD (16 - shiftAmount b)
  | .srl | .sra => shiftAmount b != 0 && a.getLsbD (shiftAmount b - 1)
  | .slt | .sltu | .and | .or | .xor | .nor | .rotl => false

/-- OF: signed overflow of an add or subtract, a signed product outside the word; otherwise 0 (G2). -/
def AluFn.overflow (f : AluFn) (a b r : Word) : Bool :=
  match f with
  | .add | .addu => a.getLsbD 15 == b.getLsbD 15 && r.getLsbD 15 != a.getLsbD 15
  | .sub | .subu => a.getLsbD 15 != b.getLsbD 15 && r.getLsbD 15 != a.getLsbD 15
  | .mul => decide (sval a * sval b < -32768 ∨ 32767 < sval a * sval b)
  | .slt | .mulu | .sltu | .and | .or | .xor | .nor | .sll | .srl | .sra | .rotl => false

/-- `fl` after an ALU instruction under G2: ZF, SF, CF, OF, EQ in bits 0 to 4, bits 15:5 zero. -/
def conventionalFlags (f : AluFn) (a b r : Word) : Word :=
  (0 : BitVec 11) ++ BitVec.ofBool (decide (a = b)) ++ BitVec.ofBool (f.overflow a b r)
    ++ BitVec.ofBool (f.carry a b) ++ BitVec.ofBool (r.getLsbD 15) ++ BitVec.ofBool (decide (r = 0))

/-! ## What an instruction leaves in `fl` -/

/-- The value left in `fl`: the next free value (R33), or under `FLAG_MODEL = conventional` the given
one. -/
def flagValue (cfg : Config) (s : State) (conventional : Word) : Word :=
  match cfg.flagModel with
  | .unconstrained => Config.freeFlags s.draws
  | .conventional => conventional

/-- Every instruction leaves a value in `fl` (R33) and the counter of free values advances (log 3). -/
def State.leaveFlags (cfg : Config) (s : State) (conventional : Word) : State :=
  { s with fl := flagValue cfg s conventional, draws := s.draws + 1 }

/-- The end of an instruction that is no ALU instruction: `fl` is left unconstrained (under G2,
unchanged) and `pc` is assigned. -/
def State.finish (cfg : Config) (s : State) (pc : Word) : State := (s.leaveFlags cfg s.fl).setPc pc

end Sys2Proof.Machine
end

