-- ==== Sys2Proof/Machine/AluRegs.lean ====
section
/-! DEFINITION. Operation group 1, the sixteen two-register ALU instructions (40_alu_rtype), and the
template they share with the immediate forms (R120, 41_alu_itype R150). -/

namespace Sys2Proof.Machine

/-- The template of R120 and R150: `a` is the old `x[rd]`, `b` the second operand; the result goes to
`x[rd]` and `pc` to the next instruction. Under `SHIFT_AMOUNT = refuse` an amount above 15 faults (U8). -/
def aluInto (cfg : Config) (f : AluFn) (rd : Reg) (b : Word) (s : State) : Result :=
  if f.isShift ∧ cfg.shiftAmount = .refuse ∧ 15 < b.toNat then raise (.shiftAmountRange s.pc b)
  else
    let a := s.reg rd
    let r := f.result a b
    .next (((s.setReg rd r).leaveFlags cfg (conventionalFlags f a b r)).setPc s.nextPc)

/-- R120: the second operand is `x[rs]`, read before the write (D8, log 14). -/
def aluRegs (cfg : Config) (f : AluFn) (rd rs : Reg) (s : State) : Result :=
  aluInto cfg f rd (s.reg rs) s

/-- ADD (R121): `x[rd] <- trunc16(u(a) + u(b))`. -/
def addWith (cfg : Config) (rd rs : Reg) (s : State) : Result := aluRegs cfg .add rd rs s

/-- ADD at the machine's parameters. -/
def execAdd (rd rs : Reg) (s : State) : Result := addWith config rd rs s

/-- SUB (R122): `x[rd] <- trunc16(u(a) - u(b))`. -/
def subWith (cfg : Config) (rd rs : Reg) (s : State) : Result := aluRegs cfg .sub rd rs s

/-- SUB at the machine's parameters. -/
def execSub (rd rs : Reg) (s : State) : Result := subWith config rd rs s

/-- MUL (R124): `x[rd] <- trunc16(s(a) * s(b))`; `hi` and `lo` are not written. -/
def mulWith (cfg : Config) (rd rs : Reg) (s : State) : Result := aluRegs cfg .mul rd rs s

/-- MUL at the machine's parameters. -/
def execMul (rd rs : Reg) (s : State) : Result := mulWith config rd rs s

/-- SLT (R126): `x[rd] <- 1` if `s(a) < s(b)`, else 0. -/
def sltWith (cfg : Config) (rd rs : Reg) (s : State) : Result := aluRegs cfg .slt rd rs s

/-- SLT at the machine's parameters. -/
def execSlt (rd rs : Reg) (s : State) : Result := sltWith config rd rs s

/-- ADDU (R128): the value of ADD. -/
def adduWith (cfg : Config) (rd rs : Reg) (s : State) : Result := aluRegs cfg .addu rd rs s

/-- ADDU at the machine's parameters. -/
def execAddu (rd rs : Reg) (s : State) : Result := adduWith config rd rs s

/-- SUBU (R129): the value of SUB. -/
def subuWith (cfg : Config) (rd rs : Reg) (s : State) : Result := aluRegs cfg .subu rd rs s

/-- SUBU at the machine's parameters. -/
def execSubu (rd rs : Reg) (s : State) : Result := subuWith config rd rs s

/-- MULU (R130): `x[rd] <- trunc16(u(a) * u(b))`; `hi` and `lo` are not written. -/
def muluWith (cfg : Config) (rd rs : Reg) (s : State) : Result := aluRegs cfg .mulu rd rs s

/-- MULU at the machine's parameters. -/
def execMulu (rd rs : Reg) (s : State) : Result := muluWith config rd rs s

/-- SLTU (R131): `x[rd] <- 1` if `u(a) < u(b)`, else 0. -/
def sltuWith (cfg : Config) (rd rs : Reg) (s : State) : Result := aluRegs cfg .sltu rd rs s

/-- SLTU at the machine's parameters. -/
def execSltu (rd rs : Reg) (s : State) : Result := sltuWith config rd rs s

/-- AND (R132): `x[rd] <- x[rd] & x[rs]`. -/
def andWith (cfg : Config) (rd rs : Reg) (s : State) : Result := aluRegs cfg .and rd rs s

/-- AND at the machine's parameters. -/
def execAnd (rd rs : Reg) (s : State) : Result := andWith config rd rs s

/-- OR (R133): `x[rd] <- x[rd] | x[rs]`. -/
def orWith (cfg : Config) (rd rs : Reg) (s : State) : Result := aluRegs cfg .or rd rs s

/-- OR at the machine's parameters. -/
def execOr (rd rs : Reg) (s : State) : Result := orWith config rd rs s

/-- XOR (R134): `x[rd] <- x[rd] ^ x[rs]`. -/
def xorWith (cfg : Config) (rd rs : Reg) (s : State) : Result := aluRegs cfg .xor rd rs s

/-- XOR at the machine's parameters. -/
def execXor (rd rs : Reg) (s : State) : Result := xorWith config rd rs s

/-- NOR (R135): `x[rd] <- ~(x[rd] | x[rs])`. -/
def norWith (cfg : Config) (rd rs : Reg) (s : State) : Result := aluRegs cfg .nor rd rs s

/-- NOR at the machine's parameters. -/
def execNor (rd rs : Reg) (s : State) : Result := norWith config rd rs s

/-- SLL (R137): `x[rd]` shifted left by `x[rs][3:0]`, zeros entering. -/
def sllWith (cfg : Config) (rd rs : Reg) (s : State) : Result := aluRegs cfg .sll rd rs s

/-- SLL at the machine's parameters. -/
def execSll (rd rs : Reg) (s : State) : Result := sllWith config rd rs s

/-- SRL (R138): `x[rd]` shifted right by `x[rs][3:0]`, zeros entering. -/
def srlWith (cfg : Config) (rd rs : Reg) (s : State) : Result := aluRegs cfg .srl rd rs s

/-- SRL at the machine's parameters. -/
def execSrl (rd rs : Reg) (s : State) : Result := srlWith config rd rs s

/-- SRA (R139): `x[rd]` shifted right by `x[rs][3:0]`, the sign entering. -/
def sraWith (cfg : Config) (rd rs : Reg) (s : State) : Result := aluRegs cfg .sra rd rs s

/-- SRA at the machine's parameters. -/
def execSra (rd rs : Reg) (s : State) : Result := sraWith config rd rs s

/-- ROTL (R140): `x[rd]` rotated left by `x[rs][3:0]`. -/
def rotlWith (cfg : Config) (rd rs : Reg) (s : State) : Result := aluRegs cfg .rotl rd rs s

/-- ROTL at the machine's parameters. -/
def execRotl (rd rs : Reg) (s : State) : Result := rotlWith config rd rs s

end Sys2Proof.Machine
end

