-- ==== Sys2Proof/Machine/AluImm.lean ====
section
/-! DEFINITION. Operation group 2, the sixteen immediate ALU instructions (41_alu_itype): the R-type
counterpart's operation with the extended immediate as second operand (R150). -/

namespace Sys2Proof.Machine

/-- The second operand is the sign-extended immediate (R87). -/
def aluSigned (cfg : Config) (f : AluFn) (rd : Reg) (imm : BitVec 6) (s : State) : Result :=
  aluInto cfg f rd (signedImm imm) s

/-- The second operand is the zero-extended immediate (R87). -/
def aluUnsigned (cfg : Config) (f : AluFn) (rd : Reg) (imm : BitVec 6) (s : State) : Result :=
  aluInto cfg f rd (unsignedImm imm) s

/-- ADDI (R151): ADD with the immediate sign-extended. -/
def addiWith (cfg : Config) (rd : Reg) (imm : BitVec 6) (s : State) : Result :=
  aluSigned cfg .add rd imm s

/-- ADDI at the machine's parameters. -/
def execAddi (rd : Reg) (imm : BitVec 6) (s : State) : Result := addiWith config rd imm s

/-- SUBI (R152): SUB with the immediate sign-extended. -/
def subiWith (cfg : Config) (rd : Reg) (imm : BitVec 6) (s : State) : Result :=
  aluSigned cfg .sub rd imm s

/-- SUBI at the machine's parameters. -/
def execSubi (rd : Reg) (imm : BitVec 6) (s : State) : Result := subiWith config rd imm s

/-- MULI (R153): MUL with the immediate sign-extended. -/
def muliWith (cfg : Config) (rd : Reg) (imm : BitVec 6) (s : State) : Result :=
  aluSigned cfg .mul rd imm s

/-- MULI at the machine's parameters. -/
def execMuli (rd : Reg) (imm : BitVec 6) (s : State) : Result := muliWith config rd imm s

/-- SLTI (R154): SLT with the immediate sign-extended. -/
def sltiWith (cfg : Config) (rd : Reg) (imm : BitVec 6) (s : State) : Result :=
  aluSigned cfg .slt rd imm s

/-- SLTI at the machine's parameters. -/
def execSlti (rd : Reg) (imm : BitVec 6) (s : State) : Result := sltiWith config rd imm s

/-- ADDIU (R155): ADDU with the immediate zero-extended. -/
def addiuWith (cfg : Config) (rd : Reg) (imm : BitVec 6) (s : State) : Result :=
  aluUnsigned cfg .addu rd imm s

/-- ADDIU at the machine's parameters. -/
def execAddiu (rd : Reg) (imm : BitVec 6) (s : State) : Result := addiuWith config rd imm s

/-- SUBIU (R156): SUBU with the immediate zero-extended. -/
def subiuWith (cfg : Config) (rd : Reg) (imm : BitVec 6) (s : State) : Result :=
  aluUnsigned cfg .subu rd imm s

/-- SUBIU at the machine's parameters. -/
def execSubiu (rd : Reg) (imm : BitVec 6) (s : State) : Result := subiuWith config rd imm s

/-- MULIU (R157): MULU with the immediate zero-extended. -/
def muliuWith (cfg : Config) (rd : Reg) (imm : BitVec 6) (s : State) : Result :=
  aluUnsigned cfg .mulu rd imm s

/-- MULIU at the machine's parameters. -/
def execMuliu (rd : Reg) (imm : BitVec 6) (s : State) : Result := muliuWith config rd imm s

/-- SLTIU (R158): SLTU with the immediate zero-extended. -/
def sltiuWith (cfg : Config) (rd : Reg) (imm : BitVec 6) (s : State) : Result :=
  aluUnsigned cfg .sltu rd imm s

/-- SLTIU at the machine's parameters. -/
def execSltiu (rd : Reg) (imm : BitVec 6) (s : State) : Result := sltiuWith config rd imm s

/-- ANDI (R159): AND with the immediate zero-extended. -/
def andiWith (cfg : Config) (rd : Reg) (imm : BitVec 6) (s : State) : Result :=
  aluUnsigned cfg .and rd imm s

/-- ANDI at the machine's parameters. -/
def execAndi (rd : Reg) (imm : BitVec 6) (s : State) : Result := andiWith config rd imm s

/-- ORI (R160): OR with the immediate zero-extended. -/
def oriWith (cfg : Config) (rd : Reg) (imm : BitVec 6) (s : State) : Result :=
  aluUnsigned cfg .or rd imm s

/-- ORI at the machine's parameters. -/
def execOri (rd : Reg) (imm : BitVec 6) (s : State) : Result := oriWith config rd imm s

/-- XORI (R161): XOR with the immediate zero-extended. -/
def xoriWith (cfg : Config) (rd : Reg) (imm : BitVec 6) (s : State) : Result :=
  aluUnsigned cfg .xor rd imm s

/-- XORI at the machine's parameters. -/
def execXori (rd : Reg) (imm : BitVec 6) (s : State) : Result := xoriWith config rd imm s

/-- NORI (R162): NOR with the immediate zero-extended. -/
def noriWith (cfg : Config) (rd : Reg) (imm : BitVec 6) (s : State) : Result :=
  aluUnsigned cfg .nor rd imm s

/-- NORI at the machine's parameters. -/
def execNori (rd : Reg) (imm : BitVec 6) (s : State) : Result := noriWith config rd imm s

/-- SLLI (R163): SLL with the immediate zero-extended, of which the low 4 bits are the amount (R167). -/
def slliWith (cfg : Config) (rd : Reg) (imm : BitVec 6) (s : State) : Result :=
  aluUnsigned cfg .sll rd imm s

/-- SLLI at the machine's parameters. -/
def execSlli (rd : Reg) (imm : BitVec 6) (s : State) : Result := slliWith config rd imm s

/-- SRLI (R164): SRL with the immediate zero-extended, of which the low 4 bits are the amount (R167). -/
def srliWith (cfg : Config) (rd : Reg) (imm : BitVec 6) (s : State) : Result :=
  aluUnsigned cfg .srl rd imm s

/-- SRLI at the machine's parameters. -/
def execSrli (rd : Reg) (imm : BitVec 6) (s : State) : Result := srliWith config rd imm s

/-- SRAI (R165): SRA with the immediate sign-extended, of which the low 4 bits are the amount (R167). -/
def sraiWith (cfg : Config) (rd : Reg) (imm : BitVec 6) (s : State) : Result :=
  aluSigned cfg .sra rd imm s

/-- SRAI at the machine's parameters. -/
def execSrai (rd : Reg) (imm : BitVec 6) (s : State) : Result := sraiWith config rd imm s

/-- ROTLI (R166): ROTL with the immediate zero-extended, of which the low 4 bits are the amount (R167). -/
def rotliWith (cfg : Config) (rd : Reg) (imm : BitVec 6) (s : State) : Result :=
  aluUnsigned cfg .rotl rd imm s

/-- ROTLI at the machine's parameters. -/
def execRotli (rd : Reg) (imm : BitVec 6) (s : State) : Result := rotliWith config rd imm s

end Sys2Proof.Machine
end

