-- ==== Sys2Proof/Machine/JumpBranch.lean ====
section
/-! DEFINITION. Operation group 3, jumps and branches (42_jump_branch). Control transfer is immediate, no
alignment check is made on a target, and `fl` is left unconstrained (R180). -/

namespace Sys2Proof.Machine

/-- A jump that writes a link value to a register (JAL, JALR). -/
def jumpAndLink (cfg : Config) (link : Reg) (value target : Word) (s : State) : Result :=
  .next ((s.setReg link value).finish cfg target)

/-- JALR with `JALR_LINK` as a parameter (R184): the target is read before the link is written (D8,
log 14). -/
def jalrWith (cfg : Config) (rd rs : Reg) (s : State) : Result :=
  jumpAndLink cfg rs (trunc16 (uval s.pc + uval cfg.jalrLink)) (s.reg rd) s

/-- A branch to `pc + boff` if the condition holds, else to the next instruction (R185 to R187). -/
def branchIf (cfg : Config) (taken : Bool) (offset : BitVec 4) (s : State) : Result :=
  .next (s.finish cfg (if taken then s.branchTarget offset else s.nextPc))

/-- J (R181): `pc <- zext_16(target)`. -/
def jWith (cfg : Config) (target : BitVec 10) (s : State) : Result :=
  .next (s.finish cfg (jumpTarget target))

/-- J at the machine's parameters. -/
def execJ (target : BitVec 10) (s : State) : Result := jWith config target s

/-- JAL (R182): `x[4] <- trunc16(pc + 2)`, `pc <- zext_16(target)`. -/
def jalWith (cfg : Config) (target : BitVec 10) (s : State) : Result :=
  jumpAndLink cfg .ra s.nextPc (jumpTarget target) s

/-- JAL at the machine's parameters. -/
def execJal (target : BitVec 10) (s : State) : Result := jalWith config target s

/-- JR (R183): `pc <- x[rd]`. -/
def jrWith (cfg : Config) (rd : Reg) (s : State) : Result := .next (s.finish cfg (s.reg rd))

/-- JR at the machine's parameters. -/
def execJr (rd : Reg) (s : State) : Result := jrWith config rd s

/-- JALR (R184): `t <- x[rd]`, `x[rs] <- trunc16(pc + JALR_LINK)`, `pc <- t` (D7, log 13). -/
def execJalr (rd rs : Reg) (s : State) : Result := jalrWith config rd rs s

/-- BEQ (R185): all 16 bits compared; no flag is read. -/
def beqWith (cfg : Config) (rd rs : Reg) (offset : BitVec 4) (s : State) : Result :=
  branchIf cfg (decide (s.reg rd = s.reg rs)) offset s

/-- BEQ at the machine's parameters. -/
def execBeq (rd rs : Reg) (offset : BitVec 4) (s : State) : Result := beqWith config rd rs offset s

/-- BNE (R186). -/
def bneWith (cfg : Config) (rd rs : Reg) (offset : BitVec 4) (s : State) : Result :=
  branchIf cfg (decide (s.reg rd ≠ s.reg rs)) offset s

/-- BNE at the machine's parameters. -/
def execBne (rd rs : Reg) (offset : BitVec 4) (s : State) : Result := bneWith config rd rs offset s

end Sys2Proof.Machine
end

