-- ==== Sys2Proof/Machine/LoadStore.lean ====
section
/-! DEFINITION. Loads and stores (43_load_store_move R200 to R204): base register plus scaled offset. The
base is `rs` for loads and `rd` for stores; no base register is modified. -/

namespace Sys2Proof.Machine

/-- LW under the parameters: the word at `x[rs] + boff` goes to `x[rd]` (R201). The alignment check is
made even when the value is discarded (D21, log 23). -/
def loadWord (cfg : Config) (rd rs : Reg) (offset : BitVec 4) (s : State) : Result :=
  match wordAddress cfg s.pc (s.effectiveAddress rs offset) with
  | .error f => raise f
  | .ok a => .next ((s.setReg rd (readWord cfg s.mem a)).finish cfg s.nextPc)

/-- SW under the parameters: `x[rs]` goes to the word at `x[rd] + boff` (R203). -/
def storeWord (cfg : Config) (rd rs : Reg) (offset : BitVec 4) (s : State) : Result :=
  match wordAddress cfg s.pc (s.effectiveAddress rd offset) with
  | .error f => raise f
  | .ok a => .next ((s.setMem (writeWord cfg s.mem a (s.reg rs))).finish cfg s.nextPc)

/-- LB under the parameters: the byte at `x[rs] + boff`, zero-extended, goes to `x[rd]` (R202). -/
def loadByte (cfg : Config) (rd rs : Reg) (offset : BitVec 4) (s : State) : Result :=
  let v := readByte cfg s.mem (s.effectiveAddress rs offset)
  .next ((s.setReg rd (v.setWidth 16)).finish cfg s.nextPc)

/-- SB under the parameters: the low byte of `x[rs]` goes to the byte at `x[rd] + boff` (R204). -/
def storeByte (cfg : Config) (rd rs : Reg) (offset : BitVec 4) (s : State) : Result :=
  let v := (s.reg rs).extractLsb' 0 8
  .next ((s.setMem (writeByte cfg s.mem (s.effectiveAddress rd offset) v)).finish cfg s.nextPc)

/-- LW (R201). -/
def execLw (rd rs : Reg) (offset : BitVec 4) (s : State) : Result := loadWord config rd rs offset s

/-- LB (R202). -/
def execLb (rd rs : Reg) (offset : BitVec 4) (s : State) : Result := loadByte config rd rs offset s

/-- SW (R203): the `rd` field is the base, the `rs` field the data. -/
def execSw (rd rs : Reg) (offset : BitVec 4) (s : State) : Result := storeWord config rd rs offset s

/-- SB (R204): the `rd` field is the base, the `rs` field the data. -/
def execSb (rd rs : Reg) (offset : BitVec 4) (s : State) : Result := storeByte config rd rs offset s

end Sys2Proof.Machine
end

