-- ==== Sys2Proof/Machine/MoveHiLo.lean ====
section
/-! DEFINITION. The HI/LO moves (43_load_store_move R207 to R212): each follows its Operation line in one
step (D22, log 24). -/

namespace Sys2Proof.Machine

/-- A copy from one general register to another (R207). -/
def moveReg (cfg : Config) (dst src : Reg) (s : State) : Result :=
  .next ((s.setReg dst (s.reg src)).finish cfg s.nextPc)

/-- MFHI (R208): `x[rd] <- x[12]`. -/
def mfhiWith (cfg : Config) (rd : Reg) (s : State) : Result := moveReg cfg rd .hi s

/-- MFHI at the machine's parameters. -/
def execMfhi (rd : Reg) (s : State) : Result := mfhiWith config rd s

/-- MFLO (R209): `x[rd] <- x[13]`. -/
def mfloWith (cfg : Config) (rd : Reg) (s : State) : Result := moveReg cfg rd .lo s

/-- MFLO at the machine's parameters. -/
def execMflo (rd : Reg) (s : State) : Result := mfloWith config rd s

/-- MTHI (R210): `x[12] <- x[rd]`. -/
def mthiWith (cfg : Config) (rd : Reg) (s : State) : Result := moveReg cfg .hi rd s

/-- MTHI at the machine's parameters. -/
def execMthi (rd : Reg) (s : State) : Result := mthiWith config rd s

/-- MTLO (R211): `x[13] <- x[rd]`. -/
def mtloWith (cfg : Config) (rd : Reg) (s : State) : Result := moveReg cfg .lo rd s

/-- MTLO at the machine's parameters. -/
def execMtlo (rd : Reg) (s : State) : Result := mtloWith config rd s

end Sys2Proof.Machine
end

