-- ==== Sys2Proof/Machine/Dispatch.lean ====
section
/-! DEFINITION. The meaning of each instruction, one arm per constructor of Instr. -/

namespace Sys2Proof.Machine

def exec (i : Instr) (s : State) : Host.Outcome State Fault Refusal :=
  match i with
  | .add rd rs => Sys2Proof.Machine.execAdd rd rs s
  | .sub rd rs => Sys2Proof.Machine.execSub rd rs s
  | .mul rd rs => Sys2Proof.Machine.execMul rd rs s
  | .slt rd rs => Sys2Proof.Machine.execSlt rd rs s
  | .addu rd rs => Sys2Proof.Machine.execAddu rd rs s
  | .subu rd rs => Sys2Proof.Machine.execSubu rd rs s
  | .mulu rd rs => Sys2Proof.Machine.execMulu rd rs s
  | .sltu rd rs => Sys2Proof.Machine.execSltu rd rs s
  | .and rd rs => Sys2Proof.Machine.execAnd rd rs s
  | .or rd rs => Sys2Proof.Machine.execOr rd rs s
  | .xor rd rs => Sys2Proof.Machine.execXor rd rs s
  | .nor rd rs => Sys2Proof.Machine.execNor rd rs s
  | .sll rd rs => Sys2Proof.Machine.execSll rd rs s
  | .srl rd rs => Sys2Proof.Machine.execSrl rd rs s
  | .sra rd rs => Sys2Proof.Machine.execSra rd rs s
  | .rotl rd rs => Sys2Proof.Machine.execRotl rd rs s
  | .addi rd imm => Sys2Proof.Machine.execAddi rd imm s
  | .subi rd imm => Sys2Proof.Machine.execSubi rd imm s
  | .muli rd imm => Sys2Proof.Machine.execMuli rd imm s
  | .slti rd imm => Sys2Proof.Machine.execSlti rd imm s
  | .addiu rd imm => Sys2Proof.Machine.execAddiu rd imm s
  | .subiu rd imm => Sys2Proof.Machine.execSubiu rd imm s
  | .muliu rd imm => Sys2Proof.Machine.execMuliu rd imm s
  | .sltiu rd imm => Sys2Proof.Machine.execSltiu rd imm s
  | .andi rd imm => Sys2Proof.Machine.execAndi rd imm s
  | .ori rd imm => Sys2Proof.Machine.execOri rd imm s
  | .xori rd imm => Sys2Proof.Machine.execXori rd imm s
  | .nori rd imm => Sys2Proof.Machine.execNori rd imm s
  | .slli rd imm => Sys2Proof.Machine.execSlli rd imm s
  | .srli rd imm => Sys2Proof.Machine.execSrli rd imm s
  | .srai rd imm => Sys2Proof.Machine.execSrai rd imm s
  | .rotli rd imm => Sys2Proof.Machine.execRotli rd imm s
  | .j target => Sys2Proof.Machine.execJ target s
  | .jal target => Sys2Proof.Machine.execJal target s
  | .jr rd => Sys2Proof.Machine.execJr rd s
  | .jalr rd rs => Sys2Proof.Machine.execJalr rd rs s
  | .beq rd rs offset => Sys2Proof.Machine.execBeq rd rs offset s
  | .bne rd rs offset => Sys2Proof.Machine.execBne rd rs offset s
  | .lw rd rs offset => Sys2Proof.Machine.execLw rd rs offset s
  | .lb rd rs offset => Sys2Proof.Machine.execLb rd rs offset s
  | .sw rd rs offset => Sys2Proof.Machine.execSw rd rs offset s
  | .sb rd rs offset => Sys2Proof.Machine.execSb rd rs offset s
  | .mfhi rd => Sys2Proof.Machine.execMfhi rd s
  | .mflo rd => Sys2Proof.Machine.execMflo rd s
  | .mthi rd => Sys2Proof.Machine.execMthi rd s
  | .mtlo rd => Sys2Proof.Machine.execMtlo rd s

end Sys2Proof.Machine
end

