-- ==== Sys2Proof/Machine/Step.lean ====
section
/-! DEFINITION. One step of the machine (00_scope R13). -/

namespace Sys2Proof.Machine

/-- One step (R13) at the spec's default parameters. -/
def step (s : State) : Host.Outcome State Fault Refusal := cycle config exec s

/-- The state a step leaves, a faulting one included (60_exceptions R221, 10_state R38). -/
def State.afterStep (s : State) : State := s.after (step s)

/-- What the loader does before the first step (70_reset_and_hazards R252, R254; log 6): the program's words
stand in memory, the first at `pc`, which after reset is `RESET_PC`. -/
def State.load (s : State) (program : List Word) : State :=
  s.setMem (placeWords config s.mem s.pc program)

/-- The state with the instruction word `w` (its low `nbits` bits) stored where `step` fetches next: the
two bytes at `pc` (20_memory R54). It stands for the loader of 70_reset_and_hazards R252 (log 6). -/
def State.withFetchWord (s : State) (nbits w : Nat) : State :=
  s.setMem (writeWord config s.mem s.pc (BitVec.ofNat 16 (w % 2 ^ nbits)))

end Sys2Proof.Machine
end

