-- ==== Sys2Proof/Machine/Parameters.lean ====
section
/-! DEFINITION. The machine with the parameters of 00_scope R8 as arguments (10_state R20: "arguments of the
step relation, not state"). The host's machine is the one at the spec's defaults; Laws/Parameters.lean
proves that they are the same functions there. -/

namespace Sys2Proof.Machine

/-- The meaning of each instruction under given parameters. -/
def execWith (cfg : Config) (i : Instr) (s : State) : Result :=
  match i with
  | .add rd rs => addWith cfg rd rs s
  | .sub rd rs => subWith cfg rd rs s
  | .mul rd rs => mulWith cfg rd rs s
  | .slt rd rs => sltWith cfg rd rs s
  | .addu rd rs => adduWith cfg rd rs s
  | .subu rd rs => subuWith cfg rd rs s
  | .mulu rd rs => muluWith cfg rd rs s
  | .sltu rd rs => sltuWith cfg rd rs s
  | .and rd rs => andWith cfg rd rs s
  | .or rd rs => orWith cfg rd rs s
  | .xor rd rs => xorWith cfg rd rs s
  | .nor rd rs => norWith cfg rd rs s
  | .sll rd rs => sllWith cfg rd rs s
  | .srl rd rs => srlWith cfg rd rs s
  | .sra rd rs => sraWith cfg rd rs s
  | .rotl rd rs => rotlWith cfg rd rs s
  | .addi rd imm => addiWith cfg rd imm s
  | .subi rd imm => subiWith cfg rd imm s
  | .muli rd imm => muliWith cfg rd imm s
  | .slti rd imm => sltiWith cfg rd imm s
  | .addiu rd imm => addiuWith cfg rd imm s
  | .subiu rd imm => subiuWith cfg rd imm s
  | .muliu rd imm => muliuWith cfg rd imm s
  | .sltiu rd imm => sltiuWith cfg rd imm s
  | .andi rd imm => andiWith cfg rd imm s
  | .ori rd imm => oriWith cfg rd imm s
  | .xori rd imm => xoriWith cfg rd imm s
  | .nori rd imm => noriWith cfg rd imm s
  | .slli rd imm => slliWith cfg rd imm s
  | .srli rd imm => srliWith cfg rd imm s
  | .srai rd imm => sraiWith cfg rd imm s
  | .rotli rd imm => rotliWith cfg rd imm s
  | .j target => jWith cfg target s
  | .jal target => jalWith cfg target s
  | .jr rd => jrWith cfg rd s
  | .jalr rd rs => jalrWith cfg rd rs s
  | .beq rd rs offset => beqWith cfg rd rs offset s
  | .bne rd rs offset => bneWith cfg rd rs offset s
  | .lw rd rs offset => loadWord cfg rd rs offset s
  | .lb rd rs offset => loadByte cfg rd rs offset s
  | .sw rd rs offset => storeWord cfg rd rs offset s
  | .sb rd rs offset => storeByte cfg rd rs offset s
  | .mfhi rd => mfhiWith cfg rd s
  | .mflo rd => mfloWith cfg rd s
  | .mthi rd => mthiWith cfg rd s
  | .mtlo rd => mtloWith cfg rd s

/-- One step under given parameters (00_scope R13). -/
def stepWith (cfg : Config) (s : State) : Result := cycle cfg (execWith cfg) s

/-- The machine under given parameters: its step, and its state after reset (R8, R20, R39). -/
def coreWith (cfg : Config) : Host.Core :=
  { State := State
    Fault := Fault
    Refusal := Refusal
    step := stepWith cfg
    reset := State.resetWith cfg }

/-- What the loader does before the first step (70_reset_and_hazards R252): the program's words stand from
`pc` on, in `M`, or under `MEM_ORG = harvard` in the instruction array, which no step changes and which is
therefore an argument like the other parameters (U18). -/
def loadWith (cfg : Config) (program : List Word) (s : State) : Config × State :=
  match cfg.memOrg with
  | .unified => (cfg, s.setMem (placeWords cfg s.mem s.pc program))
  | .harvard instructions =>
    ({ cfg with memOrg := .harvard (placeWords cfg instructions s.pc program) }, s)

end Sys2Proof.Machine
end

