-- ==== Sys2Proof/Safety.lean ====
section
/-! DEFINITION. The terms claims are stated in: what a word fetched is, what an instruction leaves
unchanged, agreement of two states but for the flags, the end of a run (70_reset_and_hazards
R255) and what each parameter of 00_scope R8 changes. -/

namespace Sys2Proof.Machine

/-- The instruction word at `pc`, little-endian (20_memory R54). -/
def State.fetchedWord (s : State) : Word := s.byte (s.pc + 1) ++ s.byte s.pc

/-- The word of data at `a`, little-endian (20_memory R53). -/
def State.wordAt (s : State) (a : Word) : Word := s.byte (a + 1) ++ s.byte a

/-- Every byte of memory reads as before. -/
def SameMemory (s t : State) : Prop := ∀ a, t.byte a = s.byte a

/-- Every general register reads as before. -/
def SameRegs (s t : State) : Prop := ∀ r, t.reg r = s.reg r

/-- Register `rd` holds `v` (register 0 still reads 0: a write to it is discarded, 10_state R22), and
every other register reads as before. The discarding is the spec's derivation from R22 (log 31). -/
def WritesReg (s t : State) (rd : Reg) (v : Word) : Prop :=
  t.reg rd = (if rd = .r0 then 0 else v) ∧ ∀ r, r ≠ rd → t.reg r = s.reg r

/-- What an instruction that writes one register and transfers no control leaves: the register, every
other register, memory and status as before, `pc` at the next instruction modulo 2^16 (D5, log 11).
Nothing is said of `fl` (10_state R33). -/
def RegStep (s t : State) (rd : Reg) (v : Word) : Prop :=
  WritesReg s t rd v ∧ SameMemory s t ∧ t.status = s.status ∧ t.pc = s.pc + 2

/-- What a jump or branch that writes no register leaves: `pc`, and registers, memory and status as
before. -/
def PcStep (s t : State) (target : Word) : Prop :=
  SameRegs s t ∧ SameMemory s t ∧ t.status = s.status ∧ t.pc = target

/-- The word of an R-type instruction: the base of 30_encoding R95 with the register numbers at bits
9:6 and 5:2 (R82). -/
def rWord (base : Word) (rd rs : Reg) : Word :=
  base ||| (rd.number.setWidth 16 <<< 6) ||| (rs.number.setWidth 16 <<< 2)

/-- The word of an I-type instruction (R83, R95). -/
def iWord (base : Word) (rd : Reg) (imm : BitVec 6) : Word :=
  base ||| (rd.number.setWidth 16 <<< 6) ||| imm.setWidth 16

/-- The word of an O-type instruction (R84, R95): the register numbers, below 8, at bits 9:7 and 6:4. -/
def oWord (base : Word) (rd rs : Reg) (offset : BitVec 4) : Word :=
  base ||| (rd.number.setWidth 16 <<< 7) ||| (rs.number.setWidth 16 <<< 4) ||| offset.setWidth 16

/-- An R-type instruction at every operand and in every state (40_alu_rtype R120): its word decodes to it,
it completes, `x[rd]` becomes `f` of the old `x[rd]` and `x[rs]` (both read before the write: D8, log 14),
and nothing else changes but `pc` and `fl`. -/
def CompletesRType (base : Word) (i : Reg → Reg → Instr) (f : Word → Word → Word) : Prop :=
  ∀ (rd rs : Reg) (s : State), decode (rWord base rd rs) = .ok (i rd rs) ∧
    ∃ t, exec (i rd rs) s = .next t ∧ RegStep s t rd (f (s.reg rd) (s.reg rs))

/-- An I-type instruction at every operand and in every state (41_alu_itype R150): the same with the
immediate in place of `x[rs]`. -/
def CompletesIType (base : Word) (i : Reg → BitVec 6 → Instr) (f : Word → BitVec 6 → Word) : Prop :=
  ∀ (rd : Reg) (imm : BitVec 6) (s : State), decode (iWord base rd imm) = .ok (i rd imm) ∧
    ∃ t, exec (i rd imm) s = .next t ∧ RegStep s t rd (f (s.reg rd) imm)

/-- A reserved word, from the conditions of 60_exceptions R223 on its bits: opcode 0x8, 0x9, 0xE, 0xF;
op 0xB with func 2 or 3; `sbz` of an R-type word; the unused bits of a one-register R-type word; a
4-bit register field of 14 or 15. -/
def ReservedWord (w : Word) : Prop :=
  let op := w.toNat / 4096
  let func := w.toNat / 1024 % 4
  let rd := w.toNat / 64 % 16
  let rs := w.toNat / 4 % 16
  let twoRegs := op ≤ 3 ∨ op = 10 ∧ func = 3
  let oneReg := op = 10 ∧ func = 2 ∨ op = 13
  let immediate := 4 ≤ op ∧ op ≤ 7
  op = 8 ∨ op = 9 ∨ op = 14 ∨ op = 15
    ∨ op = 11 ∧ 2 ≤ func
    ∨ twoRegs ∧ (w.toNat % 4 ≠ 0 ∨ 14 ≤ rd ∨ 14 ≤ rs)
    ∨ oneReg ∧ (w.toNat % 64 ≠ 0 ∨ 14 ≤ rd)
    ∨ immediate ∧ 14 ≤ rd

/-- The register an instruction writes, from the roles of 30_encoding R91 and the rules of each
instruction. -/
def destination : Instr → Option Reg
  | .add rd _ | .sub rd _ | .mul rd _ | .slt rd _ | .addu rd _ | .subu rd _ | .mulu rd _ => some rd
  | .sltu rd _ | .and rd _ | .or rd _ | .xor rd _ | .nor rd _ | .sll rd _ | .srl rd _ => some rd
  | .sra rd _ | .rotl rd _ => some rd
  | .addi rd _ | .subi rd _ | .muli rd _ | .slti rd _ | .addiu rd _ | .subiu rd _ => some rd
  | .muliu rd _ | .sltiu rd _ | .andi rd _ | .ori rd _ | .xori rd _ | .nori rd _ => some rd
  | .slli rd _ | .srli rd _ | .srai rd _ | .rotli rd _ => some rd
  | .j _ | .jr _ | .beq .. | .bne .. | .sw .. | .sb .. => none
  | .jal _ => some .ra
  | .jalr _ rs => some rs
  | .lw rd _ _ | .lb rd _ _ | .mfhi rd | .mflo rd => some rd
  | .mthi _ => some .hi
  | .mtlo _ => some .lo

/-- The immediate of an I-type instruction (30_encoding R83). -/
def immediateOf : Instr → Option (BitVec 6)
  | .addi _ imm | .subi _ imm | .muli _ imm | .slti _ imm => some imm
  | .addiu _ imm | .subiu _ imm | .muliu _ imm | .sltiu _ imm => some imm
  | .andi _ imm | .ori _ imm | .xori _ imm | .nori _ imm => some imm
  | .slli _ imm | .srli _ imm | .srai _ imm | .rotli _ imm => some imm
  | .add .. | .sub .. | .mul .. | .slt .. | .addu .. | .subu .. | .mulu .. | .sltu .. => none
  | .and .. | .or .. | .xor .. | .nor .. | .sll .. | .srl .. | .sra .. | .rotl .. => none
  | .j .. | .jal .. | .jr .. | .jalr .. | .beq .. | .bne .. | .lw .. | .lb .. | .sw .. | .sb .. => none
  | .mfhi .. | .mflo .. | .mthi .. | .mtlo .. => none

/-- The bytes an instruction stores to: two for SW, one for SB, none for any other (20_memory R59). -/
def StoresTo (i : Instr) (s : State) (a : Word) : Prop :=
  match i with
  | .sw rd _ offset => a = s.effectiveAddress rd offset ∨ a = s.effectiveAddress rd offset + 1
  | .sb rd _ offset => a = s.effectiveAddress rd offset
  | .add .. | .sub .. | .mul .. | .slt .. | .addu .. | .subu .. | .mulu .. | .sltu .. => False
  | .and .. | .or .. | .xor .. | .nor .. | .sll .. | .srl .. | .sra .. | .rotl .. => False
  | .addi .. | .subi .. | .muli .. | .slti .. | .addiu .. | .subiu .. | .muliu .. | .sltiu .. => False
  | .andi .. | .ori .. | .xori .. | .nori .. | .slli .. | .srli .. | .srai .. | .rotli .. => False
  | .j .. | .jal .. | .jr .. | .jalr .. | .beq .. | .bne .. | .lw .. | .lb .. => False
  | .mfhi .. | .mflo .. | .mthi .. | .mtlo .. => False

/-- The instruction is a word access at an odd address (20_memory R58): the only way an instruction
itself can fault (60_exceptions R225). -/
def MisalignedWordAccess (i : Instr) (s : State) : Prop :=
  (∃ rd rs offset, i = .lw rd rs offset ∧ isOdd (s.effectiveAddress rs offset) = true) ∨
  (∃ rd rs offset, i = .sw rd rs offset ∧ isOdd (s.effectiveAddress rd offset) = true)

/-- The instruction assigns `pc` itself (10_state R28): J, JAL, JR, JALR always, BEQ and BNE when their
condition holds. -/
def AssignsPc (i : Instr) (s : State) : Prop :=
  (∃ target, i = .j target ∨ i = .jal target) ∨ (∃ rd, i = .jr rd) ∨ (∃ rd rs, i = .jalr rd rs) ∨
  (∃ rd rs offset, i = .beq rd rs offset ∧ s.reg rd = s.reg rs ∨
    i = .bne rd rs offset ∧ s.reg rd ≠ s.reg rs)

/-- Running two instructions one after the other (00_scope R13), at whatever addresses they stand. -/
def execTwo (i j : Instr) (s : State) : Result :=
  match exec i s with
  | .next t => exec j t
  | r => r

/-- The two states agree on everything but `fl` and the model's counter of free values (10_state
R33). -/
def AgreeButFlags (s t : State) : Prop :=
  s.regs = t.regs ∧ s.pc = t.pc ∧ s.mem = t.mem ∧ s.status = t.status

/-- Two outcomes agree: next states that agree but for the flags, or the same stop. -/
def OutcomesAgree : Result → Result → Prop
  | .next s, .next t => AgreeButFlags s t
  | .fault f, .fault g => f = g
  | .refused r, .refused q => r = q
  | _, _ => False

/-- The instruction is a control transfer to its own address that writes no register and no memory
(R255). JAL is excluded, since it writes `ra`; JALR counts when its link is discarded; a branch counts
when it is taken to itself (log 19). -/
def selfTransfer (i : Instr) (s : State) : Bool :=
  match i with
  | .j target => decide (jumpTarget target = s.pc)
  | .jr rd => decide (s.reg rd = s.pc)
  | .jalr rd rs => decide (rs = .r0 ∧ s.reg rd = s.pc)
  | .beq rd rs offset => decide (s.reg rd = s.reg rs ∧ s.branchTarget offset = s.pc)
  | .bne rd rs offset => decide (s.reg rd ≠ s.reg rs ∧ s.branchTarget offset = s.pc)
  | .add .. | .sub .. | .mul .. | .slt .. | .addu .. | .subu .. | .mulu .. | .sltu .. => false
  | .and .. | .or .. | .xor .. | .nor .. | .sll .. | .srl .. | .sra .. | .rotl .. => false
  | .addi .. | .subi .. | .muli .. | .slti .. | .addiu .. | .subiu .. | .muliu .. | .sltiu .. => false
  | .andi .. | .ori .. | .xori .. | .nori .. | .slli .. | .srli .. | .srai .. | .rotli .. => false
  | .jal .. | .lw .. | .lb .. | .sw .. | .sb .. => false
  | .mfhi .. | .mflo .. | .mthi .. | .mtlo .. => false

/-- The run has ended (R255, `END_OF_RUN`): the status is `run` and the instruction at `pc` is a
transfer to itself, or `pc` is at the designated stop address. -/
def endOfRun (cfg : Config) (s : State) : Bool :=
  match s.status, cfg.endOfRun with
  | .fault _, _ => false
  | .run, .stopAddress a => decide (s.pc = a)
  | .run, .jumpToSelf =>
    match fetch cfg s with
    | .error _ => false
    | .ok w =>
      match decodeWith cfg.reservedField w with
      | .error _ => false
      | .ok i => selfTransfer i s

/-- A successful run (60_exceptions R221, 70_reset_and_hazards R255): after `n` steps without a fault
the run has ended. -/
def finishesIn (s : State) (n : Nat) : Prop :=
  ∃ t : State, Sys2Proof.core.run n s = .next t ∧ endOfRun config t = true

/-! ## What each parameter of 00_scope R8 changes (93_implementation_defined part 1; log 27) -/

/-- The byte at the lower and the byte at the upper address as a word, in the order of `BYTE_ORDER`
(20_memory R53, U20). -/
def orderedWord (cfg : Config) (lower upper : Byte) : Word :=
  if cfg.byteOrder = .big then lower ++ upper else upper ++ lower

/-- One byte as a fetch reads it (20_memory R51, U18). -/
def fetchByte (cfg : Config) (s : State) (a : Word) : Byte :=
  match cfg.memOrg with
  | .unified => readByte cfg s.mem a
  | .harvard instructions => readInstructionByte cfg instructions a

/-- A load completes with the value `v` for `rd` (log 31) and goes to the next instruction (log 11). -/
def LoadGives (cfg : Config) (i : Instr) (s : State) (rd : Reg) (v : Word) : Prop :=
  ∃ t, execWith cfg i s = .next t ∧ WritesReg s t rd v ∧ t.mem = s.mem ∧ t.status = s.status ∧
    t.pc = s.pc + 2

/-- A store of a word completes: the cells of `a` and `a + 1` hold `v` as `orderedWord` reads it, every
other cell and every register is as before (log 11). -/
def StoreGives (cfg : Config) (i : Instr) (s : State) (a v : Word) : Prop :=
  ∃ t, execWith cfg i s = .next t ∧ SameRegs s t ∧ t.status = s.status ∧ t.pc = s.pc + 2 ∧
    orderedWord cfg (readByte cfg t.mem a) (readByte cfg t.mem (a + 1)) = v ∧
    ∀ b, cellOf cfg b ≠ cellOf cfg a → cellOf cfg b ≠ cellOf cfg (a + 1) →
      readByte cfg t.mem b = readByte cfg s.mem b

/-- The operation, destination and second operand of the ALU instructions (40_alu_rtype R120, 41_alu_itype
R150). -/
def aluOperation (i : Instr) (s : State) : Option (AluFn × Reg × Word) :=
  match i with
  | .add rd rs => some (.add, rd, s.reg rs)
  | .sub rd rs => some (.sub, rd, s.reg rs)
  | .mul rd rs => some (.mul, rd, s.reg rs)
  | .slt rd rs => some (.slt, rd, s.reg rs)
  | .addu rd rs => some (.addu, rd, s.reg rs)
  | .subu rd rs => some (.subu, rd, s.reg rs)
  | .mulu rd rs => some (.mulu, rd, s.reg rs)
  | .sltu rd rs => some (.sltu, rd, s.reg rs)
  | .and rd rs => some (.and, rd, s.reg rs)
  | .or rd rs => some (.or, rd, s.reg rs)
  | .xor rd rs => some (.xor, rd, s.reg rs)
  | .nor rd rs => some (.nor, rd, s.reg rs)
  | .sll rd rs => some (.sll, rd, s.reg rs)
  | .srl rd rs => some (.srl, rd, s.reg rs)
  | .sra rd rs => some (.sra, rd, s.reg rs)
  | .rotl rd rs => some (.rotl, rd, s.reg rs)
  | .addi rd imm => some (.add, rd, imm.signExtend 16)
  | .subi rd imm => some (.sub, rd, imm.signExtend 16)
  | .muli rd imm => some (.mul, rd, imm.signExtend 16)
  | .slti rd imm => some (.slt, rd, imm.signExtend 16)
  | .addiu rd imm => some (.addu, rd, imm.setWidth 16)
  | .subiu rd imm => some (.subu, rd, imm.setWidth 16)
  | .muliu rd imm => some (.mulu, rd, imm.setWidth 16)
  | .sltiu rd imm => some (.sltu, rd, imm.setWidth 16)
  | .andi rd imm => some (.and, rd, imm.setWidth 16)
  | .ori rd imm => some (.or, rd, imm.setWidth 16)
  | .xori rd imm => some (.xor, rd, imm.setWidth 16)
  | .nori rd imm => some (.nor, rd, imm.setWidth 16)
  | .slli rd imm => some (.sll, rd, imm.setWidth 16)
  | .srli rd imm => some (.srl, rd, imm.setWidth 16)
  | .srai rd imm => some (.sra, rd, imm.signExtend 16)
  | .rotli rd imm => some (.rotl, rd, imm.setWidth 16)
  | .j .. | .jal .. | .jr .. | .jalr .. | .beq .. | .bne .. => none
  | .lw .. | .lb .. | .sw .. | .sb .. | .mfhi .. | .mflo .. | .mthi .. | .mtlo .. => none

/-- CF of the conventional definition (G2), in unsigned numbers. -/
def conventionalCarry (f : AluFn) (a b : Nat) : Prop :=
  match f with
  | .add | .addu => 2 ^ 16 ≤ a + b
  | .sub | .subu => a < b
  | .mul | .mulu => 2 ^ 16 ≤ a * b
  | .sll => b % 16 ≠ 0 ∧ a / 2 ^ (16 - b % 16) % 2 = 1
  | .srl | .sra => b % 16 ≠ 0 ∧ a / 2 ^ (b % 16 - 1) % 2 = 1
  | .slt | .sltu | .and | .or | .xor | .nor | .rotl => False

/-- OF of the conventional definition (G2), in signed numbers: the exact sum, difference or product of a
signed or unsigned add or subtract or a signed multiply lies outside the word. -/
def conventionalOverflow (f : AluFn) (a b : Int) : Prop :=
  match f with
  | .add | .addu => a + b < -32768 ∨ 32767 < a + b
  | .sub | .subu => a - b < -32768 ∨ 32767 < a - b
  | .mul => a * b < -32768 ∨ 32767 < a * b
  | .slt | .mulu | .sltu | .and | .or | .xor | .nor | .sll | .srl | .sra | .rotl => False

/-- `ADDR_BITS`: an access reaches the cell numbered by the low bits of its address, and no other (R8; what
a width other than 16 does is the model's choice, log 32). -/
def AddrBitsClause (cfg : Config) : Prop :=
  ∀ (m : Memory) (a b : Word) (v : Byte),
    (a.toNat % 2 ^ cfg.addrBits = b.toNat % 2 ^ cfg.addrBits →
      readByte cfg m a = readByte cfg m b ∧ readByte cfg (writeByte cfg m a v) b = v) ∧
    (a.toNat % 2 ^ cfg.addrBits ≠ b.toNat % 2 ^ cfg.addrBits →
      readByte cfg (writeByte cfg m a v) b = readByte cfg m b)

/-- `BYTE_ORDER` (D1, U20): the order of the two bytes of LW, SW and the fetch at an even address; LB and SB
move the byte at the address itself under either order. -/
def ByteOrderClause (cfg : Config) : Prop :=
  (∀ lower upper, cfg.byteOrder = .little → orderedWord cfg lower upper = upper ++ lower) ∧
  (∀ lower upper, cfg.byteOrder = .big → orderedWord cfg lower upper = lower ++ upper) ∧
  ∀ (rd rs : Reg) (offset : BitVec 4) (s : State),
    (isOdd s.pc = false →
      fetch cfg s = .ok (orderedWord cfg (fetchByte cfg s s.pc) (fetchByte cfg s (s.pc + 1)))) ∧
    (∀ ea, ea = s.effectiveAddress rs offset →
      LoadGives cfg (.lb rd rs offset) s rd ((readByte cfg s.mem ea).setWidth 16) ∧
      (isOdd ea = false → LoadGives cfg (.lw rd rs offset) s rd
        (orderedWord cfg (readByte cfg s.mem ea) (readByte cfg s.mem (ea + 1))))) ∧
    (∀ ea, ea = s.effectiveAddress rd offset →
      (∃ t, execWith cfg (.sb rd rs offset) s = .next t ∧ SameRegs s t ∧
        readByte cfg t.mem ea = (s.reg rs).extractLsb' 0 8 ∧
        ∀ b, cellOf cfg b ≠ cellOf cfg ea → readByte cfg t.mem b = readByte cfg s.mem b) ∧
      (isOdd ea = false → 0 < cfg.addrBits → StoreGives cfg (.sw rd rs offset) s ea (s.reg rs)))

/-- `MEM_ORG` (D2, U18): the fetch reads `M`, or under `harvard` the instruction array whatever the data
memory holds; loads and stores use the data memory under either; the loader places a program where the
fetch reads it. -/
def MemOrgClause (cfg : Config) : Prop :=
  (cfg.memOrg = .unified → ∀ (s : State) (a : Word), fetchByte cfg s a = readByte cfg s.mem a) ∧
  (∀ instructions, cfg.memOrg = .harvard instructions →
    ∀ (s : State) (m : Memory) (program : List Word),
      fetch cfg (s.setMem m) = fetch cfg s ∧ (loadWith cfg program s).2 = s) ∧
  (∀ (i : Instr) (s : State), execWith { cfg with memOrg := .unified } i s = execWith cfg i s) ∧
  ∀ (s : State) (w : Word), 0 < cfg.addrBits → isOdd s.pc = false →
    fetch (loadWith cfg [w] s).1 (loadWith cfg [w] s).2 = .ok w

/-- `MISALIGNED_DATA` (D3, U10): LW and SW at an odd address fault, split into two byte accesses in
little-endian order at any byte order (DEDUCED, log 27), or go to the address with bit 0 cleared. -/
def MisalignedDataClause (cfg : Config) : Prop :=
  ∀ (rd rs : Reg) (offset : BitVec 4) (s : State) (ea : Word), isOdd ea = true →
    (ea = s.effectiveAddress rs offset →
      (cfg.misalignedData = .fault →
        execWith cfg (.lw rd rs offset) s = .fault (.misalignedAccess s.pc ea)) ∧
      (cfg.misalignedData = .split → LoadGives cfg (.lw rd rs offset) s rd
        (readByte cfg s.mem (ea + 1) ++ readByte cfg s.mem ea)) ∧
      (cfg.misalignedData = .ignoreBit0 → LoadGives cfg (.lw rd rs offset) s rd
        (orderedWord cfg (readByte cfg s.mem (ea - 1)) (readByte cfg s.mem ea)))) ∧
    (ea = s.effectiveAddress rd offset →
      (cfg.misalignedData = .fault →
        execWith cfg (.sw rd rs offset) s = .fault (.misalignedAccess s.pc ea)) ∧
      (cfg.misalignedData = .split → 0 < cfg.addrBits →
        StoreGives { cfg with byteOrder := .little } (.sw rd rs offset) s ea (s.reg rs) ∧
        execWith cfg (.sw rd rs offset) s =
          execWith { cfg with byteOrder := .little } (.sw rd rs offset) s) ∧
      (cfg.misalignedData = .ignoreBit0 → 0 < cfg.addrBits →
        StoreGives cfg (.sw rd rs offset) s (ea - 1) (s.reg rs)))

/-- `MISALIGNED_FETCH` (D4, U11): a step at an odd `pc` faults, or fetches the word at `pc` with bit 0
cleared and runs the instruction it decodes to (with `pc` as it is: the model's choice, log 33). -/
def MisalignedFetchClause (cfg : Config) : Prop :=
  ∀ s : State, s.status = .run → isOdd s.pc = true →
    (cfg.misalignedFetch = .fault → stepWith cfg s = .fault (.misalignedFetch s.pc)) ∧
    (cfg.misalignedFetch = .ignoreBit0 → ∀ w,
      w = orderedWord cfg (fetchByte cfg s (s.pc - 1)) (fetchByte cfg s s.pc) →
      (∀ i, decodeWith cfg.reservedField w = .ok i → stepWith cfg s = execWith cfg i s) ∧
      (∀ e, decodeWith cfg.reservedField w = .error e →
        stepWith cfg s = .fault (.illegalInstruction s.pc w)) ∧
      ∀ p, stepWith cfg s ≠ .fault (.misalignedFetch p))

/-- One shift or rotate under `SHIFT_AMOUNT`: an amount above 15 faults under `refuse`; otherwise the
registers become what they become at the default. -/
def AmountClause (cfg : Config) (i : Instr) (s : State) (amount : Word) (above : Prop) : Prop :=
  (cfg.shiftAmount = .refuse → above → execWith cfg i s = .fault (.shiftAmountRange s.pc amount)) ∧
  (cfg.shiftAmount = .mask4 ∨ ¬ above → ∃ t u, execWith cfg i s = .next t ∧ exec i s = .next u ∧
    t.regs = u.regs ∧ t.mem = u.mem ∧ t.pc = u.pc)

/-- `SHIFT_AMOUNT` (D9, U8), for all eight shifts and rotates. The amount an immediate form's fault carries
is the extended immediate, the model's choice (log 15). -/
def ShiftAmountClause (cfg : Config) : Prop :=
  ∀ (rd rs : Reg) (imm : BitVec 6) (s : State),
    AmountClause cfg (.sll rd rs) s (s.reg rs) (15 < (s.reg rs).toNat) ∧
    AmountClause cfg (.srl rd rs) s (s.reg rs) (15 < (s.reg rs).toNat) ∧
    AmountClause cfg (.sra rd rs) s (s.reg rs) (15 < (s.reg rs).toNat) ∧
    AmountClause cfg (.rotl rd rs) s (s.reg rs) (15 < (s.reg rs).toNat) ∧
    AmountClause cfg (.slli rd imm) s (imm.setWidth 16) (15 < imm.toNat) ∧
    AmountClause cfg (.srli rd imm) s (imm.setWidth 16) (15 < imm.toNat) ∧
    AmountClause cfg (.srai rd imm) s (imm.signExtend 16) (15 < imm.toNat) ∧
    AmountClause cfg (.rotli rd imm) s (imm.setWidth 16) (15 < imm.toNat)

/-- `JALR_LINK` (D7, U15): what JALR adds to `pc`; the target is the old `x[rd]` (D8, log 14). -/
def JalrLinkClause (cfg : Config) : Prop :=
  ∀ (rd rs : Reg) (s : State), ∃ t, execWith cfg (.jalr rd rs) s = .next t ∧
    WritesReg s t rs (trunc16 (uval s.pc + uval cfg.jalrLink)) ∧ t.pc = s.reg rd

/-- `END_OF_RUN` (D17): a transfer to itself, or a designated stop address (70_reset_and_hazards R255,
log 19). -/
def EndOfRunClause (cfg : Config) : Prop :=
  ∀ s : State,
    (∀ a, cfg.endOfRun = .stopAddress a → (endOfRun cfg s = true ↔ s.status = .run ∧ s.pc = a)) ∧
    (cfg.endOfRun = .jumpToSelf → (endOfRun cfg s = true ↔ s.status = .run ∧
      ∃ w i, fetch cfg s = .ok w ∧ decodeWith cfg.reservedField w = .ok i ∧ selfTransfer i s = true))

/-- `FLAG_MODEL` (D10, U2): it changes nothing but `fl`; under `conventional` the ALU instructions write
the five flags and zero above them as G2 defines them, every other instruction leaves `fl` as it was,
and `fl` is 0 after reset (PRESUMED: G2 is the spec's general knowledge and no part of its rules, log
27). Nothing is said of `fl` under the default (10_state R33). -/
def FlagModelClause (cfg : Config) : Prop :=
  (∀ (model : FlagModel) (i : Instr) (s : State),
    OutcomesAgree (execWith { cfg with flagModel := model } i s) (execWith cfg i s)) ∧
  (cfg.flagModel = .conventional → ∀ (i : Instr) (s t : State), execWith cfg i s = .next t →
    (aluOperation i s = none → t.fl = s.fl) ∧
    ∀ f rd b, aluOperation i s = some (f, rd, b) →
      ∀ r, r = f.result (s.reg rd) b →
        (t.flag .zf = true ↔ r = 0) ∧ t.flag .sf = r.getLsbD 15 ∧
        (t.flag .cf = true ↔ conventionalCarry f (s.reg rd).toNat b.toNat) ∧
        (t.flag .of = true ↔ conventionalOverflow f (s.reg rd).toInt b.toInt) ∧
        (t.flag .eq = true ↔ s.reg rd = b) ∧ t.fl.toNat < 2 ^ 5) ∧
  (cfg.flagModel = .conventional → (State.resetWith cfg).fl = 0)

/-- `RESERVED_FIELD` (D12, D13, U4 to U6): under `ignore` an R-type word decodes as if `sbz`, and in a
one-register word all of bits 5:0, were zero, and every other word as at the default; register numbers 14
and 15 stay reserved. -/
def ReservedFieldClause (cfg : Config) : Prop :=
  ∀ w : Word, ∀ op func, op = w.toNat / 4096 → func = w.toNat / 1024 % 4 →
    (cfg.reservedField = .fault → decodeWith cfg.reservedField w = decode w) ∧
    (cfg.reservedField = .ignore →
      ((op ≤ 3 ∨ op = 10 ∧ func = 3) → decodeWith cfg.reservedField w = decode (w &&& 0xFFFC)) ∧
      ((op = 13 ∨ op = 10 ∧ func = 2) → decodeWith cfg.reservedField w = decode (w &&& 0xFFC0)) ∧
      (¬ (op ≤ 3 ∨ op = 13 ∨ op = 10 ∧ 2 ≤ func) → decodeWith cfg.reservedField w = decode w)) ∧
    (∀ s : State, s.status = .run → fetch cfg s = .ok w →
      (∀ i, decodeWith cfg.reservedField w = .ok i → stepWith cfg s = execWith cfg i s) ∧
      (∀ e, decodeWith cfg.reservedField w = .error e →
        stepWith cfg s = .fault (.illegalInstruction s.pc w)))

/-- `MEM_INIT` (D16, U13): nothing is written at reset; a cell that nothing has written reads as 0 under
`zero`, and otherwise as a value fixed for the cell, the same in every memory that has not written it; a
written cell reads as what was written. -/
def MemInitClause (cfg : Config) : Prop :=
  (State.resetWith cfg).mem = [] ∧
  ∀ (m : Memory) (a : Word),
    (∀ v, Memory.byteAt m (cellOf cfg a) = some v →
      readByte cfg m a = v ∧ readInstructionByte cfg m a = v) ∧
    (Memory.byteAt m (cellOf cfg a) = none →
      readByte cfg m a = readByte cfg [] a ∧
      readInstructionByte cfg m a = readInstructionByte cfg [] a ∧
      (cfg.memInit = .zero → readByte cfg m a = 0 ∧ readInstructionByte cfg m a = 0))

end Sys2Proof.Machine
end

