-- ==== Sys2Proof/Certificates/Slice0/Obligations.lean ====
section
/-! DEFINITION. The statements for the provers. A statement that rests on a decision of the spec
(`[decision: ...]`, 92_eei_decisions) says so and names it with its log entry. -/

open Sys2Proof Sys2Proof.Machine

/-! ## Encoding -/

/-- Decoding an encoded well-formed instruction gives it back, every operand at every value
(30_encoding R82 to R85, R91, R94, R95). -/
def Obligations.DecodeOfEncode : Prop :=
  ∀ i : Instr, i.wellFormed = true → decode (encode i) = .ok i

/-- A word that decodes is the encoding of what it decodes to, and that instruction is well-formed: no
two words are one instruction, and no word is two (30_encoding R94; that `sbz` and the unused field must
be zero is the spec's decision D13, log 17). -/
def Obligations.EncodeOfDecode : Prop :=
  ∀ (w : Word) (i : Instr), decode w = .ok i → i.wellFormed = true ∧ encode i = w

/-- The reserved words are exactly those of the conditions of 60_exceptions R223 (30_encoding R94, R96,
R98). That malformed words are reserved is the spec's decision D12, D13, D14 (log 17). -/
def Obligations.ReservedWordsAreExactlyRejected : Prop :=
  ∀ w : Word, (∃ e, decode w = .error e) ↔ ReservedWord w

/-- Words written out from the spec's encodings, one per format and more (95_test_vectors 1.1, 2.1),
decode to the instructions they stand for. -/
def Obligations.SampleWordsDecode : Prop :=
  decode 0x0D5C = .ok (.slt .rb .rd_) ∧ decode 0x417F = .ok (.addi .rb 63) ∧
  decode 0xA100 = .ok (.j 0x100) ∧ decode 0xAD14 = .ok (.jalr .ra .rb) ∧
  decode 0xB25F = .ok (.beq .ra .rb 15) ∧ decode 0xCA57 = .ok (.sw .ra .rb 7) ∧
  decode 0xDF40 = .ok (.mtlo .lo) ∧ decode 0x9ABC = .error (.reservedOpcode 9)

/-- R83: an I-type word is `[op] [func] [rd] [imm]` with widths 4, 2, 4, 6, used by all of group 0b01: the
instruction it decodes to has that `rd` and that `imm`; the checks the rule names. -/
def Obligations.ImmediateFormatFields : Prop :=
  (∀ w : Word, groupField w = 0b01 → formatOf w = some .i) ∧
  (∀ (op : BitVec 4) (func : BitVec 2) (rd : Reg) (imm : BitVec 6), op.toNat / 4 = 1 →
    ∃ i, decode (op ++ func ++ rd.number ++ imm) = .ok i ∧ destination i = some rd ∧
      immediateOf i = some imm) ∧
  decode 0x4000 = .ok (.addi .r0 0) ∧ decode 0x4100 = .ok (.addi .ra 0)

/-- R85: a J-type word is `[op] [func] [target]` with widths 4, 2, 10, used by J and JAL (op 0xA, func 0
and 1); the checks the rule names. -/
def Obligations.JumpFormatFields : Prop :=
  (∀ target : BitVec 10,
    formatOf ((0xA : BitVec 4) ++ (0 : BitVec 2) ++ target) = some .j ∧
    decode ((0xA : BitVec 4) ++ (0 : BitVec 2) ++ target) = .ok (.j target) ∧
    formatOf ((0xA : BitVec 4) ++ (1 : BitVec 2) ++ target) = some .j ∧
    decode ((0xA : BitVec 4) ++ (1 : BitVec 2) ++ target) = .ok (.jal target)) ∧
  decode 0xA100 = .ok (.j 0x100) ∧ decode 0xA500 = .ok (.jal 0x100)

/-! ## The step -/

/-- A step runs the decoded instruction (00_scope R13): at a running state whose `pc` is even and whose
bytes at `pc` decode to `i`, the step is `exec i` at that state, with nothing around it. -/
def Obligations.StepRunsDecodedInstruction : Prop :=
  ∀ (s : State) (i : Instr), s.status = .run → isOdd s.pc = false → decode s.fetchedWord = .ok i →
    step s = exec i s

/-- A reserved word faults with its address and itself, changes nothing but the machine status, and the
machine has no further step (30_encoding R97, 60_exceptions R223: the spec's decision D14, log 17). -/
def Obligations.ReservedWordFaults : Prop :=
  ∀ s : State, s.status = .run → isOdd s.pc = false → ReservedWord s.fetchedWord →
    step s = .fault (.illegalInstruction s.pc s.fetchedWord) ∧
    s.afterStep = { s with status := .fault (.illegalInstruction s.pc s.fetchedWord) } ∧
    s.afterStep.afterStep = s.afterStep

/-- An odd `pc` faults before memory is read, whatever memory holds (20_memory R55, 60_exceptions R224,
R227: the spec's decision D4, log 10). -/
def Obligations.OddPcFaultsBeforeMemory : Prop :=
  ∀ (s : State) (m : Memory), s.status = .run → isOdd s.pc = true →
    step (s.setMem m) = .fault (.misalignedFetch s.pc)

/-- A faulting step changes the status alone, and the faulted machine answers the same fault for ever
(60_exceptions R221, 10_state R38: the spec's decision D15, log 18). -/
def Obligations.FaultLeavesStateAndEndsRun : Prop :=
  ∀ (s : State) (f : Fault), step s = .fault f →
    s.afterStep = { s with status := .fault f } ∧ step s.afterStep = .fault f ∧
    s.afterStep.afterStep = s.afterStep

/-- The complete list of faults of a step and when each is raised (60_exceptions R222 to R225, R227: the
spec's decisions D3, D4, D14, D15; log 9, log 10, log 17, log 18). -/
def Obligations.StepFaultsExactlyWhenListed : Prop :=
  ∀ (s : State) (f : Fault), s.status = .run →
    (step s = .fault f ↔
      isOdd s.pc = true ∧ f = .misalignedFetch s.pc ∨
      isOdd s.pc = false ∧ ReservedWord s.fetchedWord ∧ f = .illegalInstruction s.pc s.fetchedWord ∨
      isOdd s.pc = false ∧ ∃ rd rs offset,
        decode s.fetchedWord = .ok (.lw rd rs offset) ∧
          isOdd (s.effectiveAddress rs offset) = true ∧
          f = .misalignedAccess s.pc (s.effectiveAddress rs offset) ∨
        decode s.fetchedWord = .ok (.sw rd rs offset) ∧
          isOdd (s.effectiveAddress rd offset) = true ∧
          f = .misalignedAccess s.pc (s.effectiveAddress rd offset))

/-- Every instruction completes in every state, but for LW and SW at an odd address (60_exceptions R225,
R226, 43_load_store_move R213, decisions D3, D5, D9, D19, D23), and no step refuses. -/
def Obligations.InstructionsCompleteUnlessMisaligned : Prop :=
  (∀ (i : Instr) (s : State), (∃ t, exec i s = .next t) ↔ ¬ MisalignedWordAccess i s) ∧
  ∀ (s : State) (r : Refusal), step s ≠ .refused r

/-! ## Operation group 1 -/

/-- ADD and ADDU (40_alu_rtype R121, R128): the sum modulo 2^16. Its clauses for `r0`, for
`pc + 2` modulo 2^16 and for `rd = rs` rest on log 31, log 11 (D5) and log 14 (D8). -/
def Obligations.AddWritesWrappedSum : Prop :=
  CompletesRType 0x0000 .add (fun a b => trunc16 (uval a + uval b)) ∧
  CompletesRType 0x1000 .addu (fun a b => trunc16 (uval a + uval b))

/-- SUB and SUBU (R122, R129): `rd` minus `rs` modulo 2^16. Its clauses for `r0`, for
`pc + 2` modulo 2^16 and for `rd = rs` rest on log 31, log 11 (D5) and log 14 (D8). -/
def Obligations.SubWritesWrappedDifference : Prop :=
  CompletesRType 0x0400 .sub (fun a b => trunc16 (uval a - uval b)) ∧
  CompletesRType 0x1400 .subu (fun a b => trunc16 (uval a - uval b))

/-- MUL and MULU (R124, R130): the low 16 bits of the product; that the high bits are lost and `hi`,
`lo` not written is the spec's decision D11 (log 16), and two's complement is PRESUMED (G1, log 26). Its
clauses for `r0`, for `pc + 2` modulo 2^16 and for `rd = rs` rest on log 31, log 11 (D5) and log 14
(D8). -/
def Obligations.MulWritesLowProduct : Prop :=
  CompletesRType 0x0800 .mul (fun a b => trunc16 (sval a * sval b)) ∧
  CompletesRType 0x1800 .mulu (fun a b => trunc16 (uval a * uval b))

/-- SLT and SLTU (R126, R131): the exact comparison, signed and unsigned; that signed means two's
complement is PRESUMED, the spec's general knowledge G1 (log 26). Its clauses for `r0`, for
`pc + 2` modulo 2^16 and for `rd = rs` rest on log 31, log 11 (D5) and log 14 (D8). -/
def Obligations.SetOnLessThanComparesExactly : Prop :=
  CompletesRType 0x0C00 .slt (fun a b => if sval a < sval b then 1 else 0) ∧
  CompletesRType 0x1C00 .sltu (fun a b => if uval a < uval b then 1 else 0)

/-- AND, OR, XOR, NOR (R132 to R135). Its clauses for `r0`, for
`pc + 2` modulo 2^16 and for `rd = rs` rest on log 31, log 11 (D5) and log 14 (D8). -/
def Obligations.LogicalWritesBitwiseResult : Prop :=
  CompletesRType 0x2000 .and (fun a b => a &&& b) ∧ CompletesRType 0x2400 .or (fun a b => a ||| b) ∧
  CompletesRType 0x2800 .xor (fun a b => a ^^^ b) ∧
  CompletesRType 0x2C00 .nor (fun a b => ~~~(a ||| b))

/-- SLL, SRL, SRA, ROTL (R137 to R140) by the amount operand modulo 16; that bits 15:4 of the amount are
ignored is the spec's decision D9 (R136, log 15); that the sign SRA copies is bit 15 rests on G1 (log
26). Its clauses for `r0`, for `pc + 2` modulo 2^16 and for `rd = rs` rest on log 31, log 11 (D5) and
log 14 (D8). -/
def Obligations.ShiftsUseLowFourBits : Prop :=
  CompletesRType 0x3000 .sll (fun a b => a <<< (b.toNat % 16)) ∧
  CompletesRType 0x3400 .srl (fun a b => a >>> (b.toNat % 16)) ∧
  CompletesRType 0x3800 .sra (fun a b => a.sshiftRight (b.toNat % 16)) ∧
  CompletesRType 0x3C00 .rotl (fun a b => a.rotateLeft (b.toNat % 16))

/-- ROTL and ROTLI move every bit `i` to bit `(i + sh) mod 16` and lose none (R140, R166; the amount by
decision D9, log 15). -/
def Obligations.RotateMovesEveryBit : Prop :=
  (∀ (rd rs : Reg) (s t : State), rd ≠ .r0 → exec (.rotl rd rs) s = .next t → ∀ k, k < 16 →
    (t.reg rd).getLsbD ((k + (s.reg rs).toNat % 16) % 16) = (s.reg rd).getLsbD k) ∧
  (∀ (rd : Reg) (imm : BitVec 6) (s t : State), rd ≠ .r0 → exec (.rotli rd imm) s = .next t →
    ∀ k, k < 16 → (t.reg rd).getLsbD ((k + imm.toNat % 16) % 16) = (s.reg rd).getLsbD k)

/-- The signed and unsigned forms of add, subtract and multiply write the same value for every input,
and those of set-on-less-than do not (R123). -/
def Obligations.SignedAndUnsignedFormsAgree : Prop :=
  (∀ (rd rs : Reg) (s : State), ∃ t1 t2 t3 t4 t5 t6,
    exec (.add rd rs) s = .next t1 ∧ exec (.addu rd rs) s = .next t2 ∧ t1.regs = t2.regs ∧
    exec (.sub rd rs) s = .next t3 ∧ exec (.subu rd rs) s = .next t4 ∧ t3.regs = t4.regs ∧
    exec (.mul rd rs) s = .next t5 ∧ exec (.mulu rd rs) s = .next t6 ∧ t5.regs = t6.regs ∧
    t1.reg rd = (if rd = .r0 then 0 else BitVec.ofInt 16 (uval (s.reg rd) + uval (s.reg rs))) ∧
    t3.reg rd = (if rd = .r0 then 0 else BitVec.ofInt 16 (uval (s.reg rd) - uval (s.reg rs))) ∧
    t5.reg rd = (if rd = .r0 then 0 else BitVec.ofInt 16 (uval (s.reg rd) * uval (s.reg rs)))) ∧
  ∃ (rd rs : Reg) (s t u : State), exec (.slt rd rs) s = .next t ∧ exec (.sltu rd rs) s = .next u ∧
    t.reg rd ≠ u.reg rd

/-! ## Operation group 2 -/

/-- ADDI, SUBI with the immediate sign-extended, ADDIU, SUBIU with it zero-extended (41_alu_itype R151,
R152, R155, R156). Its clauses for `r0` and for `pc + 2` modulo 2^16 rest on log 31 and log 11 (D5). -/
def Obligations.AddSubImmediateExtendBySign : Prop :=
  CompletesIType 0x4000 .addi (fun a imm => trunc16 (uval a + uval (imm.signExtend 16))) ∧
  CompletesIType 0x4400 .subi (fun a imm => trunc16 (uval a - uval (imm.signExtend 16))) ∧
  CompletesIType 0x5000 .addiu (fun a imm => trunc16 (uval a + uval (imm.setWidth 16))) ∧
  CompletesIType 0x5400 .subiu (fun a imm => trunc16 (uval a - uval (imm.setWidth 16)))

/-- MULI, MULIU (R153, R157): the low 16 bits of the product with the extended immediate; the width is
the spec's decision D11 (log 16), and two's complement is PRESUMED (G1, log 26). Its clauses for `r0` and for
`pc + 2` modulo 2^16 rest on log 31 and log 11 (D5). -/
def Obligations.MulImmediateWritesLowProduct : Prop :=
  CompletesIType 0x4800 .muli (fun a imm => trunc16 (sval a * imm.toInt)) ∧
  CompletesIType 0x5800 .muliu (fun a imm => trunc16 (uval a * imm.toNat))

/-- SLTI compares as signed with the sign-extended immediate, SLTIU as unsigned with the zero-extended
one (R154, R158); two's complement is PRESUMED, the spec's general knowledge G1 (log 26). Its clauses
for `r0` and for `pc + 2` modulo 2^16 rest on log 31 and log 11 (D5). -/
def Obligations.SetOnLessThanImmediate : Prop :=
  CompletesIType 0x4C00 .slti (fun a imm => if sval a < imm.toInt then 1 else 0) ∧
  CompletesIType 0x5C00 .sltiu (fun a imm => if uval a < imm.toNat then 1 else 0)

/-- ANDI, ORI, XORI, NORI with the immediate zero-extended (R159 to R162). Its clauses for `r0` and for
`pc + 2` modulo 2^16 rest on log 31 and log 11 (D5). -/
def Obligations.LogicalImmediateZeroExtends : Prop :=
  CompletesIType 0x6000 .andi (fun a imm => a &&& imm.setWidth 16) ∧
  CompletesIType 0x6400 .ori (fun a imm => a ||| imm.setWidth 16) ∧
  CompletesIType 0x6800 .xori (fun a imm => a ^^^ imm.setWidth 16) ∧
  CompletesIType 0x6C00 .nori (fun a imm => ~~~(a ||| imm.setWidth 16))

/-- SLLI, SRLI, SRAI, ROTLI (R163 to R166) by the immediate modulo 16; that `imm[5:4]` is ignored is the
spec's decision D9 (R167, log 15); the sign of SRAI rests on G1 (log 26). Its clauses for `r0` and for
`pc + 2` modulo 2^16 rest on log 31 and log 11 (D5). -/
def Obligations.ShiftImmediatesUseLowFourBits : Prop :=
  CompletesIType 0x7000 .slli (fun a imm => a <<< (imm.toNat % 16)) ∧
  CompletesIType 0x7400 .srli (fun a imm => a >>> (imm.toNat % 16)) ∧
  CompletesIType 0x7800 .srai (fun a imm => a.sshiftRight (imm.toNat % 16)) ∧
  CompletesIType 0x7C00 .rotli (fun a imm => a.rotateLeft (imm.toNat % 16))

/-! ## Operation group 3 -/

/-- J (42_jump_branch R181): `pc` becomes the zero-extended target, with no check and no register
written. -/
def Obligations.JumpGoesToTarget : Prop :=
  ∀ (target : BitVec 10) (s : State),
    decode (0xA000 ||| target.setWidth 16) = .ok (.j target) ∧
    ∃ t, exec (.j target) s = .next t ∧ PcStep s t (target.setWidth 16)

/-- R90: the target of J and JAL is an unsigned number of bytes, 0x0000 to 0x03FF, and is the whole new
`pc` whatever the old one was; every target, an odd one too, can be encoded. -/
def Obligations.JumpTargetIsUnsignedBytes : Prop :=
  ∀ (target : BitVec 10) (s : State),
    decode (0xA000 ||| target.setWidth 16) = .ok (.j target) ∧
    decode (0xA400 ||| target.setWidth 16) = .ok (.jal target) ∧
    (∃ t, exec (.j target) s = .next t ∧ t.pc.toNat = target.toNat ∧ t.pc.toNat ≤ 0x3FF) ∧
    (∃ t, exec (.jal target) s = .next t ∧ t.pc.toNat = target.toNat ∧ t.pc.toNat ≤ 0x3FF)

/-- JAL (R182): `ra` becomes `pc + 2` modulo 2^16 and `pc` the zero-extended target. What `pc` denotes is
the spec's decision D6 (log 12), the wrap its decision D5 (log 11). -/
def Obligations.JumpAndLinkWritesReturnAddress : Prop :=
  ∀ (target : BitVec 10) (s : State),
    decode (0xA400 ||| target.setWidth 16) = .ok (.jal target) ∧
    ∃ t, exec (.jal target) s = .next t ∧ WritesReg s t .ra (trunc16 (uval s.pc + 2)) ∧
      SameMemory s t ∧ t.status = s.status ∧ t.pc = target.setWidth 16

/-- JR (R183): `pc` becomes all 16 bits of `x[rd]`. -/
def Obligations.JumpRegisterGoesToRegister : Prop :=
  ∀ (rd : Reg) (s : State), decode (rWord 0xA800 rd .r0) = .ok (.jr rd) ∧
    ∃ t, exec (.jr rd) s = .next t ∧ PcStep s t (s.reg rd)

/-- JALR (R184): `pc` becomes the OLD `x[rd]` and `x[rs]` the address of the next instruction. The link
value is the spec's decision D7 (log 13), the order of read and write its decision D8 (log 14). Its
clauses for `r0` and for `pc + 2` modulo 2^16 rest on log 31 and log 11 (D5). -/
def Obligations.JumpAndLinkRegisterReadsBeforeLink : Prop :=
  ∀ (rd rs : Reg) (s : State), decode (rWord 0xAC00 rd rs) = .ok (.jalr rd rs) ∧
    ∃ t, exec (.jalr rd rs) s = .next t ∧ WritesReg s t rs (trunc16 (uval s.pc + 2)) ∧
      SameMemory s t ∧ t.status = s.status ∧ t.pc = s.reg rd

/-- BEQ and BNE (R185, R186): taken to the branch's own address plus twice the signed offset, modulo
2^16, else to the next instruction. The base is the spec's decision D26 (R187, log 12), the wrap its
decision D5 (log 11). -/
def Obligations.BranchesCompareWholeRegisters : Prop :=
  ∀ (rd rs : Reg) (offset : BitVec 4) (s : State),
    (rd.low = true → rs.low = true →
      decode (oWord 0xB000 rd rs offset) = .ok (.beq rd rs offset) ∧
      decode (oWord 0xB400 rd rs offset) = .ok (.bne rd rs offset)) ∧
    (∃ t, exec (.beq rd rs offset) s = .next t ∧
      PcStep s t (if s.reg rd = s.reg rs then trunc16 (uval s.pc + 2 * offset.toInt)
        else trunc16 (uval s.pc + 2))) ∧
    (∃ t, exec (.bne rd rs offset) s = .next t ∧
      PcStep s t (if s.reg rd ≠ s.reg rs then trunc16 (uval s.pc + 2 * offset.toInt)
        else trunc16 (uval s.pc + 2)))

/-- A call leaves the return address in `ra` and `JR $ra` returns to it (R189). The link of JALR is the
spec's decision D7 (log 13), what `pc` denotes its decision D6 (log 12), that `JALR $ra, $ra` goes to the
OLD `ra` its decision D8 (U16, log 14), and the wrap of `pc + 2` its decision D5 (log 11). -/
def Obligations.CallThenReturn : Prop :=
  ∀ (s : State) (target : BitVec 10) (f : Reg) (u : State),
    (∃ t, exec (.jal target) s = .next t ∧ t.pc = target.setWidth 16 ∧
      (u.reg .ra = t.reg .ra → ∃ v, exec (.jr .ra) u = .next v ∧ v.pc = s.pc + 2)) ∧
    (∃ t, exec (.jalr f .ra) s = .next t ∧ t.pc = s.reg f ∧
      (u.reg .ra = t.reg .ra → ∃ v, exec (.jr .ra) u = .next v ∧ v.pc = s.pc + 2))

/-- A jump to an odd address completes, its link written, and the next step faults (10_state R30, R180:
the spec's decision D4, log 10). The link `pc + 2` of JALR is its decision D7 (log 13, the wrap D5, log
11), and that the jump goes to the old `x[rd]` when the link register is the same its decision D8 (log
14). -/
def Obligations.OddJumpCompletesThenFaults : Prop :=
  ∀ (s : State) (target : BitVec 10) (rd rs : Reg), s.status = .run →
    (isOdd (target.setWidth 16) = true →
      (∃ t, exec (.j target) s = .next t ∧ step t = .fault (.misalignedFetch (target.setWidth 16))) ∧
      (∃ t, exec (.jal target) s = .next t ∧ t.reg .ra = s.pc + 2 ∧
        step t = .fault (.misalignedFetch (target.setWidth 16)))) ∧
    (isOdd (s.reg rd) = true →
      (∃ t, exec (.jr rd) s = .next t ∧ step t = .fault (.misalignedFetch (s.reg rd))) ∧
      (∃ t, exec (.jalr rd rs) s = .next t ∧ (rs ≠ .r0 → t.reg rs = s.pc + 2) ∧
        step t = .fault (.misalignedFetch (s.reg rd))))

/-! ## Operation group 4 -/

/-- LW at an even address (43_load_store_move R201): `x[rd]` becomes `M[ea+1] ++ M[ea]`. The byte order
is the spec's decision D1 (log 7), the alignment its decision D3 (log 9). Its clauses for `r0` and for
`pc + 2` modulo 2^16 rest on log 31 and log 11 (D5). -/
def Obligations.LoadWordReadsTwoBytes : Prop :=
  ∀ (rd rs : Reg) (offset : BitVec 4) (s : State),
    (rd.low = true → rs.low = true →
      decode (oWord 0xC000 rd rs offset) = .ok (.lw rd rs offset)) ∧
    (isOdd (s.effectiveAddress rs offset) = false → ∃ t, exec (.lw rd rs offset) s = .next t ∧
      RegStep s t rd (s.byte (s.effectiveAddress rs offset + 1) ++ s.byte (s.effectiveAddress rs offset)))

/-- LB at any address (R202): `x[rd]` becomes the byte at `ea`, zero-extended. That every address is
plain memory is the spec's decision D2, D23 (log 8, log 20); a load into `r0` is discarded by D21 (log
23). Its clauses for `r0` and for `pc + 2` modulo 2^16 rest on log 31 and log 11 (D5). -/
def Obligations.LoadByteZeroExtends : Prop :=
  ∀ (rd rs : Reg) (offset : BitVec 4) (s : State),
    (rd.low = true → rs.low = true →
      decode (oWord 0xC400 rd rs offset) = .ok (.lb rd rs offset)) ∧
    ∃ t, exec (.lb rd rs offset) s = .next t ∧
      RegStep s t rd ((s.byte (s.effectiveAddress rs offset)).setWidth 16)

/-- SW at an even address (R203): the two bytes at `ea` hold the word of `x[rs]`, low byte first, every
other byte and every register is as before. Byte order: decision D1 (log 7); alignment: D3 (log 9). -/
def Obligations.StoreWordWritesTwoBytes : Prop :=
  ∀ (rd rs : Reg) (offset : BitVec 4) (s : State),
    (rd.low = true → rs.low = true →
      decode (oWord 0xC800 rd rs offset) = .ok (.sw rd rs offset)) ∧
    (isOdd (s.effectiveAddress rd offset) = false → ∃ t, exec (.sw rd rs offset) s = .next t ∧
      SameRegs s t ∧ t.status = s.status ∧ t.pc = s.pc + 2 ∧
      ∀ a, a = s.effectiveAddress rd offset →
        t.byte a = (s.reg rs).extractLsb' 0 8 ∧ t.byte (a + 1) = (s.reg rs).extractLsb' 8 8 ∧
        ∀ b, b ≠ a → b ≠ a + 1 → t.byte b = s.byte b)

/-- SB at any address (R204): the one byte at `ea` holds the low byte of `x[rs]`, every other byte and
every register is as before. That every address is plain memory is the spec's decision D2, D23 (log 8,
log 20). -/
def Obligations.StoreByteWritesOneByte : Prop :=
  ∀ (rd rs : Reg) (offset : BitVec 4) (s : State),
    (rd.low = true → rs.low = true →
      decode (oWord 0xCC00 rd rs offset) = .ok (.sb rd rs offset)) ∧
    ∃ t, exec (.sb rd rs offset) s = .next t ∧
      SameRegs s t ∧ t.status = s.status ∧ t.pc = s.pc + 2 ∧
      ∀ a, a = s.effectiveAddress rd offset →
        t.byte a = (s.reg rs).extractLsb' 0 8 ∧ ∀ b, b ≠ a → t.byte b = s.byte b

/-- The effective address is the base register plus twice the signed offset, modulo 2^16 (R200;
wrap-around is decision D5, log 11). It is odd exactly when the base is odd, and LW and SW then fault
(20_memory R58: decision D3, log 9), LW into `r0` too (decision D21, log 23). -/
def Obligations.OddBaseFaultsWordAccess : Prop :=
  ∀ (rd rs : Reg) (offset : BitVec 4) (s : State),
    s.effectiveAddress rs offset = trunc16 (uval (s.reg rs) + 2 * offset.toInt) ∧
    isOdd (s.effectiveAddress rs offset) = isOdd (s.reg rs) ∧
    (isOdd (s.reg rs) = true →
      exec (.lw rd rs offset) s = .fault (.misalignedAccess s.pc (s.effectiveAddress rs offset)) ∧
      exec (.sw rs rd offset) s = .fault (.misalignedAccess s.pc (s.effectiveAddress rs offset)))

/-- Mixed widths (20_memory R61: the spec's decision D1, log 7): after SW of `v` at an even address, LB
there gives the low byte and LB one above (base one higher) the high byte; after SB of two bytes, LW
gives them as one word. -/
def Obligations.MixedWidthAccess : Prop :=
  (∀ (rd rs base data : Reg) (offset : BitVec 4) (s t u : State),
    isOdd (s.effectiveAddress base offset) = false → exec (.sw base data offset) s = .next t →
    u.mem = t.mem → rd ≠ .r0 →
    (u.reg rs = s.effectiveAddress base offset → ∃ v, exec (.lb rd rs 0) u = .next v ∧
      v.reg rd = ((s.reg data).extractLsb' 0 8).setWidth 16) ∧
    (u.reg rs = s.effectiveAddress base offset + 1 → ∃ v, exec (.lb rd rs 0) u = .next v ∧
      v.reg rd = ((s.reg data).extractLsb' 8 8).setWidth 16)) ∧
  (∀ (rd rs b0 d0 b1 d1 : Reg) (s t u v w : State) (a : Word),
    isOdd a = false → s.reg b0 = a → exec (.sb b0 d0 0) s = .next t →
    u.mem = t.mem → u.reg b1 = a + 1 → exec (.sb b1 d1 0) u = .next v →
    w.mem = v.mem → w.reg rs = a → rd ≠ .r0 →
    ∃ x, exec (.lw rd rs 0) w = .next x ∧
      x.reg rd = (u.reg d1).extractLsb' 0 8 ++ (s.reg d0).extractLsb' 0 8)

/-- A stored word is what a later fetch at its address decodes (20_memory R54, R72: the spec's decisions
D1, D2, D24; log 7, log 8): when SW at `ea` is followed by a step at `pc = ea`, the step runs the
instruction the stored word decodes to. -/
def Obligations.StoredWordIsFetched : Prop :=
  ∀ (base data : Reg) (offset : BitVec 4) (s t u : State) (i : Instr),
    isOdd (s.effectiveAddress base offset) = false → exec (.sw base data offset) s = .next t →
    decode (s.reg data) = .ok i → u.mem = t.mem → u.status = .run →
    u.pc = s.effectiveAddress base offset → step u = exec i u

/-- MFHI, MFLO, MTHI, MTLO (43_load_store_move R208 to R211): a copy in one step; that they follow the
Operation line when the operand is `hi` or `lo` itself is the spec's decision D22 (log 24). Its clauses
for `r0` and for `pc + 2` modulo 2^16 rest on log 31 and log 11 (D5). -/
def Obligations.HiLoMovesCopyOneRegister : Prop :=
  ∀ (rd : Reg) (s : State),
    (decode (rWord 0xD000 rd .r0) = .ok (.mfhi rd) ∧
      ∃ t, exec (.mfhi rd) s = .next t ∧ RegStep s t rd (s.reg .hi)) ∧
    (decode (rWord 0xD400 rd .r0) = .ok (.mflo rd) ∧
      ∃ t, exec (.mflo rd) s = .next t ∧ RegStep s t rd (s.reg .lo)) ∧
    (decode (rWord 0xD800 rd .r0) = .ok (.mthi rd) ∧
      ∃ t, exec (.mthi rd) s = .next t ∧ RegStep s t .hi (s.reg rd)) ∧
    (decode (rWord 0xDC00 rd .r0) = .ok (.mtlo rd) ∧
      ∃ t, exec (.mtlo rd) s = .next t ∧ RegStep s t .lo (s.reg rd))

/-- The printed two-instruction expansion leaves the general registers as the encoded move does for every
operand but `hi` and `lo` themselves, where it leaves 0 and the move changes nothing (R212: the spec's
decision D22, log 24). -/
def Obligations.ExpansionAgreesUnlessSameRegister : Prop :=
  ∀ (rd : Reg) (s : State),
    (∀ i, i = .mfhi rd ∨ i = .mthi rd → ∃ j k t u, i.expansion = [j, k] ∧ exec i s = .next t ∧
      execTwo j k s = .next u ∧
      (rd ≠ .hi → u.regs = t.regs) ∧ (rd = .hi → SameRegs s t ∧ u.reg .hi = 0)) ∧
    (∀ i, i = .mflo rd ∨ i = .mtlo rd → ∃ j k t u, i.expansion = [j, k] ∧ exec i s = .next t ∧
      execTwo j k s = .next u ∧
      (rd ≠ .lo → u.regs = t.regs) ∧ (rd = .lo → SameRegs s t ∧ u.reg .lo = 0))

/-! ## The whole machine -/

/-- What each instruction leaves unchanged: every register but its destination (30_encoding R91), every
byte of memory but those a store writes, and the status. That `hi` and `lo` are unchanged by MUL, MULU, MULI
and MULIU (10_state R35) is the spec's decision D11 (log 16); that a write to `r0` changes no register is its
derivation from R22 (log 31); a store's two bytes and their wrap rest on D5 (log 11). -/
def Obligations.OnlyDestinationChanges : Prop :=
  ∀ (i : Instr) (s t : State), exec i s = .next t →
    (∀ r, destination i ≠ some r → t.reg r = s.reg r) ∧
    (∀ a, ¬ StoresTo i s a → t.byte a = s.byte a) ∧ t.status = s.status

/-- Only J, JAL, JR, JALR and a branch whose condition holds assign `pc`; every other instruction, a branch
not taken included, ends at the next address, modulo 2^16 (10_state R28; the wrap is the spec's decision
D5, log 11). -/
def Obligations.OnlyTransfersAssignPc : Prop :=
  ∀ (i : Instr) (s t : State), exec i s = .next t → ¬ AssignsPc i s → t.pc = trunc16 (uval s.pc + 2)

/-- An odd `pc` after a step comes only from J or JAL with an odd target or JR or JALR through an odd
register value; sequential execution and branches keep it even (60_exceptions R224: decision D4,
log 10). -/
def Obligations.OddPcComesOnlyFromJumps : Prop :=
  ∀ (s t : State), step s = .next t → isOdd t.pc = true →
    ∃ i, decode s.fetchedWord = .ok i ∧
      ((∃ target : BitVec 10, (i = .j target ∨ i = .jal target) ∧ target.getLsbD 0 = true) ∨
       (∃ rd, i = .jr rd ∧ isOdd (s.reg rd) = true) ∨
       (∃ rd rs, i = .jalr rd rs ∧ isOdd (s.reg rd) = true))

/-- Register 0 reads 0 in every state, and an instruction that names it as destination writes no register
(10_state R22; that the write is discarded is the spec's own derivation from the constant, log 31). -/
def Obligations.RegisterZeroDiscardsWrites : Prop :=
  ∀ s : State, s.reg .r0 = 0 ∧
    ∀ (i : Instr) (t : State), destination i = some .r0 → exec i s = .next t → SameRegs s t

/-- Every step that answers a next state keeps the canonical form of the memory, and a machine that
steps is running and goes on running (10_state R38, R50). The form is the model's choice (log 4), and
that a faulted machine takes no step is the spec's decision D15 (log 18). -/
def Obligations.StepKeepsMemoryForm : Prop :=
  ∀ (s t : State), Memory.wf s.mem → step s = .next t →
    Memory.wf t.mem ∧ s.status = .run ∧ t.status = .run

/-- What reset leaves (10_state R39, 70_reset_and_hazards R250: the spec's decision D16, log 5): `pc` 0,
status `run`, register 0 zero, and the memory in its canonical form with no byte written. -/
def Obligations.ResetState : Prop :=
  State.reset.pc = 0x0000 ∧ State.reset.status = .run ∧ State.reset.reg .r0 = 0 ∧
  Memory.wf State.reset.mem ∧ ∀ a, Memory.byteAt State.reset.mem a = none

/-- No run of any length shows `fl`: registers, `pc`, memory, status and faults of a run do not depend on
it (10_state R33: the spec's decision D10, log 3). -/
def Obligations.RunNeverShowsFlags : Prop :=
  ∀ (n : Nat) (s t : State), AgreeButFlags s t →
    OutcomesAgree (Sys2Proof.core.run n s) (Sys2Proof.core.run n t)

/-- From the end of a run every later state is the same in registers, `pc`, memory and status
(70_reset_and_hazards R255: the spec's decision D17, log 19). -/
def Obligations.EndedRunStaysEnded : Prop :=
  ∀ (s : State) (n : Nat), endOfRun config s = true →
    ∃ t, Sys2Proof.core.run n s = .next t ∧ AgreeButFlags s t ∧ endOfRun config t = true

/-! ## The parameters -/

/-- What each of the twelve parameters of 00_scope R8 changes, at its default and at the alternatives of
93_implementation_defined part 1, whatever the others are: one clause of Safety.lean for each, in the order
of R8, `RESET_PC` written here. The alternatives are the spec's, not its defaults (log 27). ADDR_BITS other
than 16 is the model's choice (log 32), `pc` after a fetch that ignored bit 0 too (log 33), the conventional
flags are PRESUMED (G2, log 27), the order of a split access is DEDUCED (U10, log 27), the end of a run is
decision D17 as log 19 reads it; the clauses also rest on log 11 (D5), log 14 (D8), log 15, log 26 (G1) and
log 31. -/
def Obligations.ParametersChangeWhatTheyName : Prop :=
  ∀ cfg : Config,
    AddrBitsClause cfg ∧ ByteOrderClause cfg ∧ MemOrgClause cfg ∧ MisalignedDataClause cfg ∧
    MisalignedFetchClause cfg ∧ ShiftAmountClause cfg ∧ JalrLinkClause cfg ∧
    (State.resetWith cfg).pc = cfg.resetPc ∧ EndOfRunClause cfg ∧ FlagModelClause cfg ∧
    ReservedFieldClause cfg ∧ MemInitClause cfg
end

