-- ==== Sys2Proof/Laws/Decode.lean ====
section
/-! SUPPORT. The laws of register numbers and of the fields of a word (30_encoding R82 to R85). -/

namespace Sys2Proof

/-! ## Register numbers -/

@[simp] theorem ofNumber_number (r : Reg) : Reg.ofNumber r.number = some r := by
  cases r <;> rfl

theorem number_of_ofNumber {f : BitVec 4} {r : Reg} (h : Reg.ofNumber f = some r) : r.number = f := by
  revert f
  cases r <;> decide

/-- The numbers that name no register (R98 c). -/
theorem ofNumber_eq_none {f : BitVec 4} : Reg.ofNumber f = none ↔ 14 ≤ f.toNat := by
  revert f
  decide

theorem ofLow_low (f : BitVec 3) : (Reg.ofLow f).low = true := by
  revert f
  decide

theorem number_ofLow (f : BitVec 3) : (Reg.ofLow f).number.setWidth 3 = f := by
  revert f
  decide

theorem ofLow_number {r : Reg} (h : r.low = true) : Reg.ofLow (r.number.setWidth 3) = r := by
  cases r <;> first | rfl | exact absurd h (by decide)

@[simp] theorem regOperand_number (r : Reg) : regOperand r.number = .ok r := by
  simp [regOperand]

/-- What a 4-bit register field can give. -/
theorem regOperand_eq_ok {f : BitVec 4} {r : Reg} : regOperand f = .ok r ↔ f = r.number := by
  constructor
  · intro h
    unfold regOperand at h
    split at h
    · next hr => cases h; exact (number_of_ofNumber hr).symm
    · cases h
  · rintro rfl
    exact regOperand_number r

/-! ## The fields of an encoded word -/

section
variable (op : BitVec 4) (func : BitVec 2) (rd rs : Reg)

@[simp] theorem opField_encodeTwoRegs : opField (encodeTwoRegs op func rd rs) = op := by
  unfold opField encodeTwoRegs
  generalize rd.number = a, rs.number = b
  refine BitVec.eq_of_getLsbD_eq fun k hk => ?_
  interval_cases k <;> simp only [BitVec.getLsbD_extractLsb', BitVec.getLsbD_append] <;> simp
@[simp] theorem funcField_encodeTwoRegs : funcField (encodeTwoRegs op func rd rs) = func := by
  unfold funcField encodeTwoRegs
  generalize rd.number = a, rs.number = b
  refine BitVec.eq_of_getLsbD_eq fun k hk => ?_
  interval_cases k <;> simp only [BitVec.getLsbD_extractLsb', BitVec.getLsbD_append] <;> simp
@[simp] theorem rdField_encodeTwoRegs : rdField (encodeTwoRegs op func rd rs) = rd.number := by
  unfold rdField encodeTwoRegs
  generalize rd.number = a, rs.number = b
  refine BitVec.eq_of_getLsbD_eq fun k hk => ?_
  interval_cases k <;> simp only [BitVec.getLsbD_extractLsb', BitVec.getLsbD_append] <;> simp
@[simp] theorem rsField_encodeTwoRegs : rsField (encodeTwoRegs op func rd rs) = rs.number := by
  unfold rsField encodeTwoRegs
  generalize rd.number = a, rs.number = b
  refine BitVec.eq_of_getLsbD_eq fun k hk => ?_
  interval_cases k <;> simp only [BitVec.getLsbD_extractLsb', BitVec.getLsbD_append] <;> simp
@[simp] theorem sbzField_encodeTwoRegs : sbzField (encodeTwoRegs op func rd rs) = 0 := by
  unfold sbzField encodeTwoRegs
  generalize rd.number = a, rs.number = b
  refine BitVec.eq_of_getLsbD_eq fun k hk => ?_
  interval_cases k <;> simp only [BitVec.getLsbD_extractLsb', BitVec.getLsbD_append] <;> simp

@[simp] theorem opField_encodeOneReg : opField (encodeOneReg op func rd) = op := by
  unfold opField encodeOneReg
  generalize rd.number = a
  refine BitVec.eq_of_getLsbD_eq fun k hk => ?_
  interval_cases k <;> simp only [BitVec.getLsbD_extractLsb', BitVec.getLsbD_append] <;> simp
@[simp] theorem funcField_encodeOneReg : funcField (encodeOneReg op func rd) = func := by
  unfold funcField encodeOneReg
  generalize rd.number = a
  refine BitVec.eq_of_getLsbD_eq fun k hk => ?_
  interval_cases k <;> simp only [BitVec.getLsbD_extractLsb', BitVec.getLsbD_append] <;> simp
@[simp] theorem rdField_encodeOneReg : rdField (encodeOneReg op func rd) = rd.number := by
  unfold rdField encodeOneReg
  generalize rd.number = a
  refine BitVec.eq_of_getLsbD_eq fun k hk => ?_
  interval_cases k <;> simp only [BitVec.getLsbD_extractLsb', BitVec.getLsbD_append] <;> simp
@[simp] theorem immField_encodeOneReg : immField (encodeOneReg op func rd) = 0 := by
  unfold immField encodeOneReg
  generalize rd.number = a
  refine BitVec.eq_of_getLsbD_eq fun k hk => ?_
  interval_cases k <;> simp only [BitVec.getLsbD_extractLsb', BitVec.getLsbD_append] <;> simp

variable (imm : BitVec 6)

@[simp] theorem opField_encodeImm : opField (encodeImm op func rd imm) = op := by
  unfold opField encodeImm
  generalize rd.number = a
  refine BitVec.eq_of_getLsbD_eq fun k hk => ?_
  interval_cases k <;> simp only [BitVec.getLsbD_extractLsb', BitVec.getLsbD_append] <;> simp
@[simp] theorem funcField_encodeImm : funcField (encodeImm op func rd imm) = func := by
  unfold funcField encodeImm
  generalize rd.number = a
  refine BitVec.eq_of_getLsbD_eq fun k hk => ?_
  interval_cases k <;> simp only [BitVec.getLsbD_extractLsb', BitVec.getLsbD_append] <;> simp
@[simp] theorem rdField_encodeImm : rdField (encodeImm op func rd imm) = rd.number := by
  unfold rdField encodeImm
  generalize rd.number = a
  refine BitVec.eq_of_getLsbD_eq fun k hk => ?_
  interval_cases k <;> simp only [BitVec.getLsbD_extractLsb', BitVec.getLsbD_append] <;> simp
@[simp] theorem immField_encodeImm : immField (encodeImm op func rd imm) = imm := by
  unfold immField encodeImm
  generalize rd.number = a
  refine BitVec.eq_of_getLsbD_eq fun k hk => ?_
  interval_cases k <;> simp only [BitVec.getLsbD_extractLsb', BitVec.getLsbD_append] <;> simp

variable (offset : BitVec 4)

@[simp] theorem opField_encodeOffset : opField (encodeOffset op func rd rs offset) = op := by
  unfold opField encodeOffset
  generalize rd.number = a, rs.number = b
  refine BitVec.eq_of_getLsbD_eq fun k hk => ?_
  interval_cases k <;> simp only [BitVec.getLsbD_extractLsb', BitVec.getLsbD_append] <;> simp
@[simp] theorem funcField_encodeOffset : funcField (encodeOffset op func rd rs offset) = func := by
  unfold funcField encodeOffset
  generalize rd.number = a, rs.number = b
  refine BitVec.eq_of_getLsbD_eq fun k hk => ?_
  interval_cases k <;> simp only [BitVec.getLsbD_extractLsb', BitVec.getLsbD_append] <;> simp
@[simp] theorem rdLowField_encodeOffset :
    rdLowField (encodeOffset op func rd rs offset) = rd.number.setWidth 3 := by
  unfold rdLowField encodeOffset
  generalize rd.number = a, rs.number = b
  refine BitVec.eq_of_getLsbD_eq fun k hk => ?_
  interval_cases k <;> simp only [BitVec.getLsbD_extractLsb', BitVec.getLsbD_append] <;> simp
@[simp] theorem rsLowField_encodeOffset :
    rsLowField (encodeOffset op func rd rs offset) = rs.number.setWidth 3 := by
  unfold rsLowField encodeOffset
  generalize rd.number = a, rs.number = b
  refine BitVec.eq_of_getLsbD_eq fun k hk => ?_
  interval_cases k <;> simp only [BitVec.getLsbD_extractLsb', BitVec.getLsbD_append] <;> simp
@[simp] theorem offsetField_encodeOffset :
    offsetField (encodeOffset op func rd rs offset) = offset := by
  unfold offsetField encodeOffset
  generalize rd.number = a, rs.number = b
  refine BitVec.eq_of_getLsbD_eq fun k hk => ?_
  interval_cases k <;> simp only [BitVec.getLsbD_extractLsb', BitVec.getLsbD_append] <;> simp

variable (target : BitVec 10)

@[simp] theorem opField_encodeTarget : opField (encodeTarget op func target) = op := by
  unfold opField encodeTarget
  refine BitVec.eq_of_getLsbD_eq fun k hk => ?_
  interval_cases k <;> simp only [BitVec.getLsbD_extractLsb', BitVec.getLsbD_append] <;> simp
@[simp] theorem funcField_encodeTarget : funcField (encodeTarget op func target) = func := by
  unfold funcField encodeTarget
  refine BitVec.eq_of_getLsbD_eq fun k hk => ?_
  interval_cases k <;> simp only [BitVec.getLsbD_extractLsb', BitVec.getLsbD_append] <;> simp
@[simp] theorem targetField_encodeTarget : targetField (encodeTarget op func target) = target := by
  unfold targetField encodeTarget
  refine BitVec.eq_of_getLsbD_eq fun k hk => ?_
  interval_cases k <;> simp only [BitVec.getLsbD_extractLsb', BitVec.getLsbD_append] <;> simp

end

end Sys2Proof
end

