-- ==== Sys2Proof/Laws/State.lean ====
section
/-! SUPPORT. One lemma per field per update of the state, and the laws of reading and writing a
register. -/

namespace Sys2Proof.Machine

@[simp] theorem setReg_regs (s : State) (r : Reg) (v : Word) : (s.setReg r v).regs = s.regs.set r v := rfl
@[simp] theorem setReg_pc (s : State) (r : Reg) (v : Word) : (s.setReg r v).pc = s.pc := rfl
@[simp] theorem setReg_fl (s : State) (r : Reg) (v : Word) : (s.setReg r v).fl = s.fl := rfl
@[simp] theorem setReg_mem (s : State) (r : Reg) (v : Word) : (s.setReg r v).mem = s.mem := rfl
@[simp] theorem setReg_status (s : State) (r : Reg) (v : Word) : (s.setReg r v).status = s.status := rfl
@[simp] theorem setReg_draws (s : State) (r : Reg) (v : Word) : (s.setReg r v).draws = s.draws := rfl

@[simp] theorem setPc_regs (s : State) (p : Word) : (s.setPc p).regs = s.regs := rfl
@[simp] theorem setPc_pc (s : State) (p : Word) : (s.setPc p).pc = p := rfl
@[simp] theorem setPc_fl (s : State) (p : Word) : (s.setPc p).fl = s.fl := rfl
@[simp] theorem setPc_mem (s : State) (p : Word) : (s.setPc p).mem = s.mem := rfl
@[simp] theorem setPc_status (s : State) (p : Word) : (s.setPc p).status = s.status := rfl
@[simp] theorem setPc_draws (s : State) (p : Word) : (s.setPc p).draws = s.draws := rfl

@[simp] theorem setMem_regs (s : State) (m : Memory) : (s.setMem m).regs = s.regs := rfl
@[simp] theorem setMem_pc (s : State) (m : Memory) : (s.setMem m).pc = s.pc := rfl
@[simp] theorem setMem_fl (s : State) (m : Memory) : (s.setMem m).fl = s.fl := rfl
@[simp] theorem setMem_mem (s : State) (m : Memory) : (s.setMem m).mem = m := rfl
@[simp] theorem setMem_status (s : State) (m : Memory) : (s.setMem m).status = s.status := rfl
@[simp] theorem setMem_draws (s : State) (m : Memory) : (s.setMem m).draws = s.draws := rfl

@[simp] theorem stopped_regs (s : State) (f : Fault) : (s.stopped f).regs = s.regs := rfl
@[simp] theorem stopped_pc (s : State) (f : Fault) : (s.stopped f).pc = s.pc := rfl
@[simp] theorem stopped_fl (s : State) (f : Fault) : (s.stopped f).fl = s.fl := rfl
@[simp] theorem stopped_mem (s : State) (f : Fault) : (s.stopped f).mem = s.mem := rfl
@[simp] theorem stopped_status (s : State) (f : Fault) : (s.stopped f).status = .fault f := rfl
@[simp] theorem stopped_draws (s : State) (f : Fault) : (s.stopped f).draws = s.draws := rfl

@[simp] theorem leaveFlags_regs (cfg : Config) (s : State) (c : Word) :
    (s.leaveFlags cfg c).regs = s.regs := rfl
@[simp] theorem leaveFlags_pc (cfg : Config) (s : State) (c : Word) :
    (s.leaveFlags cfg c).pc = s.pc := rfl
@[simp] theorem leaveFlags_fl (cfg : Config) (s : State) (c : Word) :
    (s.leaveFlags cfg c).fl = flagValue cfg s c := rfl
@[simp] theorem leaveFlags_mem (cfg : Config) (s : State) (c : Word) :
    (s.leaveFlags cfg c).mem = s.mem := rfl
@[simp] theorem leaveFlags_status (cfg : Config) (s : State) (c : Word) :
    (s.leaveFlags cfg c).status = s.status := rfl
@[simp] theorem leaveFlags_draws (cfg : Config) (s : State) (c : Word) :
    (s.leaveFlags cfg c).draws = s.draws + 1 := rfl

@[simp] theorem finish_regs (cfg : Config) (s : State) (p : Word) :
    (s.finish cfg p).regs = s.regs := rfl
@[simp] theorem finish_pc (cfg : Config) (s : State) (p : Word) :
    (s.finish cfg p).pc = p := rfl
@[simp] theorem finish_fl (cfg : Config) (s : State) (p : Word) :
    (s.finish cfg p).fl = flagValue cfg s s.fl := rfl
@[simp] theorem finish_mem (cfg : Config) (s : State) (p : Word) :
    (s.finish cfg p).mem = s.mem := rfl
@[simp] theorem finish_status (cfg : Config) (s : State) (p : Word) :
    (s.finish cfg p).status = s.status := rfl
@[simp] theorem finish_draws (cfg : Config) (s : State) (p : Word) :
    (s.finish cfg p).draws = s.draws + 1 := rfl

/-! ## Registers read through the updates -/

theorem Regs.get_set (x : Regs) (r q : Reg) (v : Word) :
    (x.set r v).get q = if q = .r0 then 0 else if q = r then v else x.get q := by
  cases r <;> cases q <;> rfl

@[simp] theorem reg_r0 (s : State) : s.reg .r0 = 0 := rfl

theorem reg_setReg (s : State) (r q : Reg) (v : Word) :
    (s.setReg r v).reg q = if q = .r0 then 0 else if q = r then v else s.reg q :=
  s.regs.get_set r q v

theorem reg_setReg_same (s : State) (r : Reg) (v : Word) :
    (s.setReg r v).reg r = if r = .r0 then 0 else v := by
  rw [reg_setReg, if_pos rfl]

theorem reg_setReg_ne (s : State) {r q : Reg} (v : Word) (h : q ≠ r) :
    (s.setReg r v).reg q = s.reg q := by
  rw [reg_setReg]
  split
  · next h0 => rw [h0]; rfl
  · rfl

@[simp] theorem setReg_r0 (s : State) (v : Word) : s.setReg .r0 v = s := rfl

@[simp] theorem reg_setPc (s : State) (p : Word) (q : Reg) : (s.setPc p).reg q = s.reg q := rfl

@[simp] theorem reg_setMem (s : State) (m : Memory) (q : Reg) : (s.setMem m).reg q = s.reg q := rfl

@[simp] theorem reg_leaveFlags (cfg : Config) (s : State) (c : Word) (q : Reg) :
    (s.leaveFlags cfg c).reg q = s.reg q := rfl

@[simp] theorem reg_finish (cfg : Config) (s : State) (p : Word) (q : Reg) :
    (s.finish cfg p).reg q = s.reg q := rfl

/-! ## Bytes read through the updates -/

@[simp] theorem byte_setReg (s : State) (r : Reg) (v a : Word) : (s.setReg r v).byte a = s.byte a := rfl

@[simp] theorem byte_setPc (s : State) (p a : Word) : (s.setPc p).byte a = s.byte a := rfl

@[simp] theorem byte_leaveFlags (cfg : Config) (s : State) (c a : Word) :
    (s.leaveFlags cfg c).byte a = s.byte a := rfl

@[simp] theorem byte_finish (cfg : Config) (s : State) (p a : Word) :
    (s.finish cfg p).byte a = s.byte a := rfl

/-! ## The state an outcome leaves -/

@[simp] theorem after_next (s t : State) : s.after (.next t) = t := rfl
@[simp] theorem after_fault (s : State) (f : Fault) : s.after (.fault f) = s.stopped f := rfl
@[simp] theorem after_refused (s : State) (r : Refusal) : s.after (.refused r) = s := rfl

/-! ## The parameters of the machine (00_scope R8: the spec's defaults) -/

@[simp] theorem config_addrBits : config.addrBits = 16 := rfl
@[simp] theorem config_byteOrder : config.byteOrder = .little := rfl
@[simp] theorem config_memOrg : config.memOrg = .unified := rfl
@[simp] theorem config_misalignedData : config.misalignedData = .fault := rfl
@[simp] theorem config_misalignedFetch : config.misalignedFetch = .fault := rfl
@[simp] theorem config_shiftAmount : config.shiftAmount = .mask4 := rfl
@[simp] theorem config_jalrLink : config.jalrLink = 2 := rfl
@[simp] theorem config_endOfRun : config.endOfRun = .jumpToSelf := rfl
@[simp] theorem config_flagModel : config.flagModel = .unconstrained := rfl
@[simp] theorem config_reservedField : config.reservedField = .fault := rfl
@[simp] theorem config_memInit : config.memInit = .unspecified := rfl

end Sys2Proof.Machine
end

