-- ==== Sys2Proof/Laws/Word.lean ====
section
/-! SUPPORT. The integer formulas of the spec as BitVec arithmetic: the small lemmas of `trunc16`, of the
operand forms and of the ALU results. -/

namespace Sys2Proof

theorem trunc16_uval (a : Word) : trunc16 (uval a) = a := by
  simp [trunc16, uval]

theorem trunc16_sval (a : Word) : trunc16 (sval a) = a := by
  simp [trunc16, sval]

theorem trunc16_add (m n : Int) : trunc16 (m + n) = trunc16 m + trunc16 n := by
  simp [trunc16, BitVec.ofInt_add]

theorem trunc16_mul (m n : Int) : trunc16 (m * n) = trunc16 m * trunc16 n := by
  simp [trunc16, BitVec.ofInt_mul]

theorem trunc16_sub (m n : Int) : trunc16 (m - n) = trunc16 m - trunc16 n := by
  rw [Int.sub_eq_add_neg, trunc16_add, BitVec.sub_eq_add_neg]
  simp [trunc16, BitVec.ofInt_neg]

theorem isOdd_iff (a : Word) : isOdd a = true ↔ a.toNat % 2 = 1 := by
  simp [isOdd, BitVec.getLsbD, Nat.testBit_zero]

end Sys2Proof

namespace Sys2Proof.Machine

theorem sumOf_eq (a b : Word) : sumOf a b = a + b := by
  simp [sumOf, trunc16_add, trunc16_uval]

theorem differenceOf_eq (a b : Word) : differenceOf a b = a - b := by
  simp [differenceOf, trunc16_sub, trunc16_uval]

theorem signedProductOf_eq (a b : Word) : signedProductOf a b = a * b := by
  simp [signedProductOf, trunc16_mul, trunc16_sval]

theorem unsignedProductOf_eq (a b : Word) : unsignedProductOf a b = a * b := by
  simp [unsignedProductOf, trunc16_mul, trunc16_uval]

theorem signedLessOf_eq (a b : Word) : signedLessOf a b = if a.toInt < b.toInt then 1 else 0 := rfl

theorem unsignedLessOf_eq (a b : Word) :
    unsignedLessOf a b = if a.toNat < b.toNat then 1 else 0 := by
  simp [unsignedLessOf, uval]

theorem secondByte_eq (a : Word) : secondByte a = a + 1 := by
  have h : trunc16 1 = (1 : Word) := by decide
  simp [secondByte, trunc16_add, trunc16_uval, h]

theorem nextPc_eq (s : State) : s.nextPc = s.pc + 2 := by
  have h : trunc16 2 = (2 : Word) := by decide
  simp [State.nextPc, trunc16_add, trunc16_uval, h]

theorem effectiveAddress_eq (s : State) (base : Reg) (offset : BitVec 4) :
    s.effectiveAddress base offset = s.reg base + byteOffset offset := by
  simp [State.effectiveAddress, trunc16_add, trunc16_uval, trunc16_sval]

theorem branchTarget_eq (s : State) (offset : BitVec 4) :
    s.branchTarget offset = s.pc + byteOffset offset := by
  simp [State.branchTarget, trunc16_add, trunc16_uval, trunc16_sval]

theorem shiftAmount_eq (b : Word) : shiftAmount b = b.toNat % 16 := by
  simp [shiftAmount]

theorem shiftAmount_lt (b : Word) : shiftAmount b < 16 := by
  rw [shiftAmount_eq]; omega

end Sys2Proof.Machine
end

