-- ==== Sys2Proof/Laws/Memory.lean ====
section
/-! SUPPORT. The laws of memory: a read after a write, and the canonical form, which every operation
keeps. -/

namespace Sys2Proof.Machine

/-- A read after a write: the written cell holds the value, every other cell what it held. -/
theorem byteAt_put (m : Memory) (a b : Nat) (v : Byte) :
    Memory.byteAt (Memory.put m a v) b = if b = a then some v else Memory.byteAt m b := by
  induction m with
  | nil => simp [Memory.put, Memory.byteAt, eq_comm]
  | cons c m ih =>
    unfold Memory.put
    split
    · simp only [Memory.byteAt, eq_comm (a := a) (b := b)]
    · split
      · next h => by_cases hb : b = a <;> simp_all [Memory.byteAt, eq_comm]
      · by_cases hc : c.1 = b
        · have : b ≠ a := by omega
          simp [Memory.byteAt, hc, this]
        · simp [Memory.byteAt, hc, ih]

/-- A write lists no address but the written one and those listed before. -/
theorem mem_put {m : Memory} {a : Nat} {v : Byte} {c : Host.Cell} (h : c ∈ Memory.put m a v) :
    c = (a, v) ∨ c ∈ m := by
  induction m with
  | nil => simpa [Memory.put] using h
  | cons d m ih =>
    unfold Memory.put at h
    split at h
    · simpa using h
    · split at h
      · simp only [List.mem_cons] at h ⊢; tauto
      · simp only [List.mem_cons] at h ⊢
        rcases h with h | h
        · tauto
        · have := ih h; tauto

/-- A write keeps the canonical form. -/
theorem wf_put {m : Memory} {a : Nat} {v : Byte} (h : Memory.wf m)
    (ha : a < 2 ^ Config.spec.addrBits) :
    Memory.wf (Memory.put m a v) := by
  refine ⟨?_, fun c hc => ?_⟩
  · have hp := h.1
    clear h
    induction m with
    | nil => simp [Memory.put]
    | cons d m ih =>
      rw [List.pairwise_cons] at hp
      unfold Memory.put
      split
      · next hlt =>
        refine List.pairwise_cons.2 ⟨fun c hc => ?_, List.pairwise_cons.2 hp⟩
        rcases List.mem_cons.1 hc with rfl | hc
        · exact hlt
        · exact lt_trans hlt (hp.1 c hc)
      · split
        · next heq => exact List.pairwise_cons.2 ⟨fun c hc => by simpa [heq] using hp.1 c hc, hp.2⟩
        · refine List.pairwise_cons.2 ⟨fun c hc => ?_, ih hp.2⟩
          rcases mem_put hc with rfl | hc
          · dsimp only; omega
          · exact hp.1 c hc
  · rcases mem_put hc with rfl | hc
    · exact ha
    · exact h.2 c hc

/-- A cell is one of the 2^16 of the canonical form, whatever the parameters. -/
theorem cellOf_lt (cfg : Config) (a : Word) : cellOf cfg a < 2 ^ Config.spec.addrBits :=
  lt_of_le_of_lt (Nat.mod_le _ _) a.isLt

/-- At the machine's parameters every address has a cell of its own (20_memory R50). -/
@[simp] theorem cellOf_config (a : Word) : cellOf config a = a.toNat :=
  Nat.mod_eq_of_lt a.isLt

theorem wf_writeByte {m : Memory} (h : Memory.wf m) (cfg : Config) (a : Word) (v : Byte) :
    Memory.wf (writeByte cfg m a v) :=
  wf_put h (cellOf_lt cfg a)

theorem wf_writeWord {m : Memory} (h : Memory.wf m) (cfg : Config) (a v : Word) :
    Memory.wf (writeWord cfg m a v) :=
  wf_writeByte (wf_writeByte h _ _ _) _ _ _

theorem wf_placeWords {m : Memory} (h : Memory.wf m) (cfg : Config) (a : Word) (program : List Word) :
    Memory.wf (placeWords cfg m a program) := by
  induction program generalizing m a with
  | nil => exact h
  | cons w ws ih => exact ih (wf_writeWord h cfg a w) _

/-- Nothing is listed after reset. -/
theorem wf_nil : Memory.wf [] := ⟨List.Pairwise.nil, fun _ h => nomatch h⟩

/-- Under any parameters a written cell reads as the value and every other cell as before (20_memory
R50, R57). -/
theorem readByte_writeByte_cell (cfg : Config) (m : Memory) (a b : Word) (v : Byte) :
    readByte cfg (writeByte cfg m a v) b =
      if cellOf cfg b = cellOf cfg a then v else readByte cfg m b := by
  unfold readByte writeByte
  rw [byteAt_put]
  split <;> rfl

/-- 20_memory R50, R57: one cell changes. -/
theorem readByte_writeByte (m : Memory) (a b : Word) (v : Byte) :
    readByte config (writeByte config m a v) b = if b = a then v else readByte config m b := by
  simp [readByte_writeByte_cell, BitVec.toNat_inj]

/-- The two bytes of an access have cells of their own, unless there is but one cell. -/
theorem cellOf_add_one_ne {cfg : Config} (h : 0 < cfg.addrBits) (a : Word) :
    cellOf cfg (a + 1) ≠ cellOf cfg a := by
  unfold cellOf
  obtain ⟨k, hk⟩ : ∃ k, cfg.addrBits = k + 1 := ⟨cfg.addrBits - 1, by omega⟩
  intro e
  have h2 : (a + 1).toNat % 2 ^ (k + 1) % 2 = a.toNat % 2 ^ (k + 1) % 2 := by rw [← hk, e]
  rw [pow_succ, Nat.mod_mul_left_mod, Nat.mod_mul_left_mod] at h2
  have : (a + 1).toNat = (a.toNat + 1) % 65536 := by simp [BitVec.toNat_add]
  omega

theorem add_one_ne (a : Word) : a + 1 ≠ a := by
  bv_omega

/-- 20_memory R57 at the spec's byte order: the two bytes a word store writes; every other byte is as
before. -/
theorem readByte_writeWord (m : Memory) (a b v : Word) :
    readByte config (writeWord config m a v) b =
      if b = a + 1 then v.extractLsb' 8 8 else if b = a then v.extractLsb' 0 8
      else readByte config m b := by
  have ho : orderAt config a = .little := by simp [orderAt]
  simp [writeWord, ho, lowerByte, upperByte, readByte_writeByte, secondByte_eq]

/-- 20_memory R53, R56 at the spec's byte order. -/
theorem readWord_eq (m : Memory) (a : Word) :
    readWord config m a = readByte config m (a + 1) ++ readByte config m a := by
  have ho : orderAt config a = .little := by simp [orderAt]
  simp [readWord, wordOf, ho, joinBytes, secondByte_eq]

theorem append_extract (v : Word) :
    v.extractLsb' 8 8 ++ v.extractLsb' 0 8 = v := by
  have h := BitVec.extractLsb'_append_extractLsb'_eq_extractLsb' (x := v) (start₁ := 0)
    (start₂ := 8) (len₁ := 8) (len₂ := 8) rfl
  simpa using h

/-- The two bytes of a word, joined in the order they were taken in, are the word. -/
theorem joinBytes_lower_upper (order : ByteOrder) (v : Word) :
    joinBytes order (lowerByte order v) (upperByte order v) = v := by
  cases order <;> simp [joinBytes, lowerByte, upperByte, append_extract]

/-- A word read back from where it was written. -/
theorem readWord_writeWord_same (m : Memory) (a v : Word) :
    readWord config (writeWord config m a v) a = v := by
  have h : a ≠ a + 1 := (add_one_ne a).symm
  simp only [readWord_eq, readByte_writeWord, if_true, h, if_false]
  exact append_extract v

@[simp] theorem byte_setMem (s : State) (m : Memory) (a : Word) :
    (s.setMem m).byte a = readByte config m a := rfl

theorem byte_eq_readByte (s : State) (a : Word) : s.byte a = readByte config s.mem a := rfl

end Sys2Proof.Machine
end

