-- ==== Sys2Proof/Laws/Ops.lean ====
section
/-! SUPPORT. One lemma per shared operation that says once all it can do, at the machine's parameters. -/

namespace Sys2Proof.Machine

/-- The fetch: an odd `pc` faults, an even one gives the two bytes at `pc` (20_memory R54, R55). -/
theorem fetch_eq (s : State) :
    fetch config s =
      if isOdd s.pc then .error (.misalignedFetch s.pc) else .ok s.fetchedWord := by
  unfold fetch
  split <;> simp [fetchWord, readWord_eq, State.fetchedWord, byte_eq_readByte]

/-- The alignment check of LW and SW (20_memory R58). -/
theorem wordAddress_eq (pc ea : Word) :
    wordAddress config pc ea =
      if isOdd ea then .error (.misalignedAccess pc ea) else .ok ea := by
  unfold wordAddress
  split <;> simp

/-- The one thing the ALU template can do. -/
theorem aluInto_eq (f : AluFn) (rd : Reg) (b : Word) (s : State) :
    aluInto config f rd b s =
      .next (((s.setReg rd (f.result (s.reg rd) b)).leaveFlags config
        (conventionalFlags f (s.reg rd) b (f.result (s.reg rd) b))).setPc s.nextPc) := by
  simp [aluInto]

theorem writesReg_setReg (s : State) (rd : Reg) (v : Word) : WritesReg s (s.setReg rd v) rd v :=
  ⟨reg_setReg_same s rd v, fun _ h => reg_setReg_ne s v h⟩

/-- The ALU template as what it leaves. -/
theorem aluInto_spec (f : AluFn) (rd : Reg) (b : Word) (s : State) :
    ∃ t, aluInto config f rd b s = .next t ∧ RegStep s t rd (f.result (s.reg rd) b)
      ∧ t.mem = s.mem :=
  ⟨_, aluInto_eq f rd b s,
    ⟨⟨by simp [reg_setReg_same], fun q h => by simp [reg_setReg_ne s _ h]⟩, fun a => rfl, rfl,
      nextPc_eq s⟩, rfl⟩

/-- A register move as what it leaves. -/
theorem moveReg_spec (dst src : Reg) (s : State) :
    ∃ t, moveReg config dst src s = .next t ∧ RegStep s t dst (s.reg src) ∧ t.mem = s.mem :=
  ⟨_, rfl, ⟨⟨by simp [reg_setReg_same], fun q h => by simp [reg_setReg_ne s _ h]⟩, fun a => rfl, rfl,
    nextPc_eq s⟩, rfl⟩

/-- A jump that links as what it leaves. -/
theorem jumpAndLink_spec (link : Reg) (v target : Word) (s : State) :
    ∃ t, jumpAndLink config link v target s = .next t ∧ WritesReg s t link v ∧ SameMemory s t
      ∧ t.mem = s.mem ∧ t.status = s.status ∧ t.pc = target :=
  ⟨_, rfl, ⟨by simp [reg_setReg_same], fun q h => by simp [reg_setReg_ne s _ h]⟩, fun _ => rfl, rfl,
    rfl, rfl⟩

/-- A jump or branch that writes no register as what it leaves. -/
theorem finish_spec (s : State) (target : Word) : PcStep s (s.finish config target) target :=
  ⟨fun _ => rfl, fun _ => rfl, rfl, rfl⟩

/-- LW as a function of the alignment of its address. -/
theorem loadWord_eq (rd rs : Reg) (offset : BitVec 4) (s : State) :
    loadWord config rd rs offset s =
      if isOdd (s.effectiveAddress rs offset)
      then .fault (.misalignedAccess s.pc (s.effectiveAddress rs offset))
      else .next ((s.setReg rd (s.wordAt (s.effectiveAddress rs offset))).finish config s.nextPc) := by
  unfold loadWord
  rw [wordAddress_eq]
  split
  · next h => split at h <;> simp_all [raise]
  · next h => split at h <;> simp_all [State.wordAt, readWord_eq, byte_eq_readByte]

/-- SW as a function of the alignment of its address. -/
theorem storeWord_eq (rd rs : Reg) (offset : BitVec 4) (s : State) :
    storeWord config rd rs offset s =
      if isOdd (s.effectiveAddress rd offset)
      then .fault (.misalignedAccess s.pc (s.effectiveAddress rd offset))
      else .next ((s.setMem (writeWord config s.mem (s.effectiveAddress rd offset)
        (s.reg rs))).finish config s.nextPc) := by
  unfold storeWord
  rw [wordAddress_eq]
  split
  · next h => split at h <;> simp_all [raise]
  · next h => split at h <;> simp_all

end Sys2Proof.Machine
end

