-- ==== Sys2Proof/Laws/Parameters.lean ====
section
/-! SUPPORT. The host's machine is the machine with parameters at the spec's defaults, and what a step under
any parameters can do to memory. -/

namespace Sys2Proof.Machine

theorem exec_eq_execWith (i : Instr) (s : State) : exec i s = execWith config i s := by
  cases i <;> rfl

theorem step_eq_cycle (s : State) : step s = cycle config exec s := rfl

/-- The one thing a cycle can do when it answers a next state: it ran the instruction it decoded. -/
theorem cycle_next {cfg : Config} {execute : Instr → State → Result} {s t : State}
    (h : cycle cfg execute s = .next t) :
    s.status = .run ∧ ∃ w i, fetch cfg s = .ok w ∧ decodeWith cfg.reservedField w = .ok i ∧
      execute i s = .next t := by
  unfold cycle at h
  split at h
  · cases h
  · next hs =>
    split at h
    · cases h
    · next w hw =>
      split at h
      · cases h
      · next i hi => exact ⟨hs, w, i, hw, hi, h⟩

/-- Under any parameters the ALU template faults or leaves memory as it was. -/
theorem aluInto_mem {cfg : Config} {f : AluFn} {rd : Reg} {b : Word} {s t : State}
    (h : aluInto cfg f rd b s = .next t) : t.mem = s.mem := by
  unfold aluInto at h
  split at h
  · cases h
  · cases h; rfl

end Sys2Proof.Machine
end

