-- ==== Sys2Proof/Laws/PerInstr.lean ====
section
/-! SUPPORT. Each instruction's word carries the base and the mask of its row of 30_encoding R95 (the
"match" and "mask" of spec/opcode_table.json), transcribed here apart from the encoder. -/

namespace Sys2Proof.Laws.MatchesRow

/-- The base and the mask of the instruction's row (R95). -/
def row : Instr → Word × Word
  | .add _ _ => (0x0000, 0xFC03)
  | .sub _ _ => (0x0400, 0xFC03)
  | .mul _ _ => (0x0800, 0xFC03)
  | .slt _ _ => (0x0C00, 0xFC03)
  | .addu _ _ => (0x1000, 0xFC03)
  | .subu _ _ => (0x1400, 0xFC03)
  | .mulu _ _ => (0x1800, 0xFC03)
  | .sltu _ _ => (0x1C00, 0xFC03)
  | .and _ _ => (0x2000, 0xFC03)
  | .or _ _ => (0x2400, 0xFC03)
  | .xor _ _ => (0x2800, 0xFC03)
  | .nor _ _ => (0x2C00, 0xFC03)
  | .sll _ _ => (0x3000, 0xFC03)
  | .srl _ _ => (0x3400, 0xFC03)
  | .sra _ _ => (0x3800, 0xFC03)
  | .rotl _ _ => (0x3C00, 0xFC03)
  | .addi _ _ => (0x4000, 0xFC00)
  | .subi _ _ => (0x4400, 0xFC00)
  | .muli _ _ => (0x4800, 0xFC00)
  | .slti _ _ => (0x4C00, 0xFC00)
  | .addiu _ _ => (0x5000, 0xFC00)
  | .subiu _ _ => (0x5400, 0xFC00)
  | .muliu _ _ => (0x5800, 0xFC00)
  | .sltiu _ _ => (0x5C00, 0xFC00)
  | .andi _ _ => (0x6000, 0xFC00)
  | .ori _ _ => (0x6400, 0xFC00)
  | .xori _ _ => (0x6800, 0xFC00)
  | .nori _ _ => (0x6C00, 0xFC00)
  | .slli _ _ => (0x7000, 0xFC00)
  | .srli _ _ => (0x7400, 0xFC00)
  | .srai _ _ => (0x7800, 0xFC00)
  | .rotli _ _ => (0x7C00, 0xFC00)
  | .j _ => (0xA000, 0xFC00)
  | .jal _ => (0xA400, 0xFC00)
  | .jr _ => (0xA800, 0xFC3F)
  | .jalr _ _ => (0xAC00, 0xFC03)
  | .beq _ _ _ => (0xB000, 0xFC00)
  | .bne _ _ _ => (0xB400, 0xFC00)
  | .lw _ _ _ => (0xC000, 0xFC00)
  | .lb _ _ _ => (0xC400, 0xFC00)
  | .sw _ _ _ => (0xC800, 0xFC00)
  | .sb _ _ _ => (0xCC00, 0xFC00)
  | .mfhi _ => (0xD000, 0xFC3F)
  | .mflo _ => (0xD400, 0xFC3F)
  | .mthi _ => (0xD800, 0xFC3F)
  | .mtlo _ => (0xDC00, 0xFC3F)

/-- The bits of the word under the row's mask are the row's base. -/
def Statement (i : Instr) : Prop := encode i &&& (row i).2 = (row i).1

/-! The part of each format under its mask. -/

theorem twoRegs_row (op : BitVec 4) (func : BitVec 2) (rd rs : Reg) :
    encodeTwoRegs op func rd rs &&& 0xFC03 = op ++ func ++ (0 : BitVec 10) := by
  unfold encodeTwoRegs
  generalize rd.number = a, rs.number = b
  refine BitVec.eq_of_getLsbD_eq fun k hk => ?_
  interval_cases k <;> simp only [BitVec.getLsbD_and, BitVec.getLsbD_append] <;> simp

theorem oneReg_row (op : BitVec 4) (func : BitVec 2) (rd : Reg) :
    encodeOneReg op func rd &&& 0xFC3F = op ++ func ++ (0 : BitVec 10) := by
  unfold encodeOneReg
  generalize rd.number = a
  refine BitVec.eq_of_getLsbD_eq fun k hk => ?_
  interval_cases k <;> simp only [BitVec.getLsbD_and, BitVec.getLsbD_append] <;> simp

theorem imm_row (op : BitVec 4) (func : BitVec 2) (rd : Reg) (imm : BitVec 6) :
    encodeImm op func rd imm &&& 0xFC00 = op ++ func ++ (0 : BitVec 10) := by
  unfold encodeImm
  generalize rd.number = a
  refine BitVec.eq_of_getLsbD_eq fun k hk => ?_
  interval_cases k <;> simp only [BitVec.getLsbD_and, BitVec.getLsbD_append] <;> simp

theorem offset_row (op : BitVec 4) (func : BitVec 2) (rd rs : Reg) (offset : BitVec 4) :
    encodeOffset op func rd rs offset &&& 0xFC00 = op ++ func ++ (0 : BitVec 10) := by
  unfold encodeOffset
  generalize rd.number = a, rs.number = b
  refine BitVec.eq_of_getLsbD_eq fun k hk => ?_
  interval_cases k <;> simp only [BitVec.getLsbD_and, BitVec.getLsbD_append] <;> simp

theorem target_row (op : BitVec 4) (func : BitVec 2) (target : BitVec 10) :
    encodeTarget op func target &&& 0xFC00 = op ++ func ++ (0 : BitVec 10) := by
  unfold encodeTarget
  refine BitVec.eq_of_getLsbD_eq fun k hk => ?_
  interval_cases k <;> simp only [BitVec.getLsbD_and, BitVec.getLsbD_append] <;> simp

theorem add (rd : Reg) (rs : Reg) : Statement (.add rd rs) :=
  twoRegs_row ..

theorem sub (rd : Reg) (rs : Reg) : Statement (.sub rd rs) :=
  twoRegs_row ..

theorem mul (rd : Reg) (rs : Reg) : Statement (.mul rd rs) :=
  twoRegs_row ..

theorem slt (rd : Reg) (rs : Reg) : Statement (.slt rd rs) :=
  twoRegs_row ..

theorem addu (rd : Reg) (rs : Reg) : Statement (.addu rd rs) :=
  twoRegs_row ..

theorem subu (rd : Reg) (rs : Reg) : Statement (.subu rd rs) :=
  twoRegs_row ..

theorem mulu (rd : Reg) (rs : Reg) : Statement (.mulu rd rs) :=
  twoRegs_row ..

theorem sltu (rd : Reg) (rs : Reg) : Statement (.sltu rd rs) :=
  twoRegs_row ..

theorem and (rd : Reg) (rs : Reg) : Statement (.and rd rs) :=
  twoRegs_row ..

theorem or (rd : Reg) (rs : Reg) : Statement (.or rd rs) :=
  twoRegs_row ..

theorem xor (rd : Reg) (rs : Reg) : Statement (.xor rd rs) :=
  twoRegs_row ..

theorem nor (rd : Reg) (rs : Reg) : Statement (.nor rd rs) :=
  twoRegs_row ..

theorem sll (rd : Reg) (rs : Reg) : Statement (.sll rd rs) :=
  twoRegs_row ..

theorem srl (rd : Reg) (rs : Reg) : Statement (.srl rd rs) :=
  twoRegs_row ..

theorem sra (rd : Reg) (rs : Reg) : Statement (.sra rd rs) :=
  twoRegs_row ..

theorem rotl (rd : Reg) (rs : Reg) : Statement (.rotl rd rs) :=
  twoRegs_row ..

theorem addi (rd : Reg) (imm : BitVec 6) : Statement (.addi rd imm) :=
  imm_row ..

theorem subi (rd : Reg) (imm : BitVec 6) : Statement (.subi rd imm) :=
  imm_row ..

theorem muli (rd : Reg) (imm : BitVec 6) : Statement (.muli rd imm) :=
  imm_row ..

theorem slti (rd : Reg) (imm : BitVec 6) : Statement (.slti rd imm) :=
  imm_row ..

theorem addiu (rd : Reg) (imm : BitVec 6) : Statement (.addiu rd imm) :=
  imm_row ..

theorem subiu (rd : Reg) (imm : BitVec 6) : Statement (.subiu rd imm) :=
  imm_row ..

theorem muliu (rd : Reg) (imm : BitVec 6) : Statement (.muliu rd imm) :=
  imm_row ..

theorem sltiu (rd : Reg) (imm : BitVec 6) : Statement (.sltiu rd imm) :=
  imm_row ..

theorem andi (rd : Reg) (imm : BitVec 6) : Statement (.andi rd imm) :=
  imm_row ..

theorem ori (rd : Reg) (imm : BitVec 6) : Statement (.ori rd imm) :=
  imm_row ..

theorem xori (rd : Reg) (imm : BitVec 6) : Statement (.xori rd imm) :=
  imm_row ..

theorem nori (rd : Reg) (imm : BitVec 6) : Statement (.nori rd imm) :=
  imm_row ..

theorem slli (rd : Reg) (imm : BitVec 6) : Statement (.slli rd imm) :=
  imm_row ..

theorem srli (rd : Reg) (imm : BitVec 6) : Statement (.srli rd imm) :=
  imm_row ..

theorem srai (rd : Reg) (imm : BitVec 6) : Statement (.srai rd imm) :=
  imm_row ..

theorem rotli (rd : Reg) (imm : BitVec 6) : Statement (.rotli rd imm) :=
  imm_row ..

theorem j (target : BitVec 10) : Statement (.j target) :=
  target_row ..

theorem jal (target : BitVec 10) : Statement (.jal target) :=
  target_row ..

theorem jr (rd : Reg) : Statement (.jr rd) :=
  oneReg_row ..

theorem jalr (rd : Reg) (rs : Reg) : Statement (.jalr rd rs) :=
  twoRegs_row ..

theorem beq (rd : Reg) (rs : Reg) (offset : BitVec 4) : Statement (.beq rd rs offset) :=
  offset_row ..

theorem bne (rd : Reg) (rs : Reg) (offset : BitVec 4) : Statement (.bne rd rs offset) :=
  offset_row ..

theorem lw (rd : Reg) (rs : Reg) (offset : BitVec 4) : Statement (.lw rd rs offset) :=
  offset_row ..

theorem lb (rd : Reg) (rs : Reg) (offset : BitVec 4) : Statement (.lb rd rs offset) :=
  offset_row ..

theorem sw (rd : Reg) (rs : Reg) (offset : BitVec 4) : Statement (.sw rd rs offset) :=
  offset_row ..

theorem sb (rd : Reg) (rs : Reg) (offset : BitVec 4) : Statement (.sb rd rs offset) :=
  offset_row ..

theorem mfhi (rd : Reg) : Statement (.mfhi rd) :=
  oneReg_row ..

theorem mflo (rd : Reg) : Statement (.mflo rd) :=
  oneReg_row ..

theorem mthi (rd : Reg) : Statement (.mthi rd) :=
  oneReg_row ..

theorem mtlo (rd : Reg) : Statement (.mtlo rd) :=
  oneReg_row ..

end Sys2Proof.Laws.MatchesRow
end

