-- ==== Sys2Proof/Tests/Slice0.lean ====
section
/-! SUPPORT. Tests of the model. Expected values are those of 95_test_vectors (its section named in each
comment) or the spec's encodings, never the model's own answers. The witnesses at the end show that
the hypotheses of each obligation are met together. -/

namespace Sys2Proof.Tests

open Sys2Proof.Machine

/-! ## WellFormed: a term with a register above 7 in an O-type field is refused -/

theorem test_smoke_beq_rd : Instr.wellFormed (.beq .s0 .ra 0) = false := by decide
theorem test_smoke_beq_rs : Instr.wellFormed (.beq .ra .lo 0) = false := by decide
theorem test_smoke_beq_low : Instr.wellFormed (.beq .r0 .rd_ 0) = true := by decide
theorem test_smoke_bne_rd : Instr.wellFormed (.bne .s0 .ra 0) = false := by decide
theorem test_smoke_bne_rs : Instr.wellFormed (.bne .ra .lo 0) = false := by decide
theorem test_smoke_bne_low : Instr.wellFormed (.bne .r0 .rd_ 0) = true := by decide
theorem test_smoke_lw_rd : Instr.wellFormed (.lw .s0 .ra 0) = false := by decide
theorem test_smoke_lw_rs : Instr.wellFormed (.lw .ra .lo 0) = false := by decide
theorem test_smoke_lw_low : Instr.wellFormed (.lw .r0 .rd_ 0) = true := by decide
theorem test_smoke_lb_rd : Instr.wellFormed (.lb .s0 .ra 0) = false := by decide
theorem test_smoke_lb_rs : Instr.wellFormed (.lb .ra .lo 0) = false := by decide
theorem test_smoke_lb_low : Instr.wellFormed (.lb .r0 .rd_ 0) = true := by decide
theorem test_smoke_sw_rd : Instr.wellFormed (.sw .s0 .ra 0) = false := by decide
theorem test_smoke_sw_rs : Instr.wellFormed (.sw .ra .lo 0) = false := by decide
theorem test_smoke_sw_low : Instr.wellFormed (.sw .r0 .rd_ 0) = true := by decide
theorem test_smoke_sb_rd : Instr.wellFormed (.sb .s0 .ra 0) = false := by decide
theorem test_smoke_sb_rs : Instr.wellFormed (.sb .ra .lo 0) = false := by decide
theorem test_smoke_sb_low : Instr.wellFormed (.sb .r0 .rd_ 0) = true := by decide

/-! ## Decode: one word per instruction, its fields written out from 30_encoding R82 to R85, R93 -/

theorem test_decode_add : decode 0b0000_00_0101_0010_00 = .ok (.add .rb .sp) := by decide
theorem test_decode_sub : decode 0b0000_01_0110_0101_00 = .ok (.sub .rc .rb) := by decide
theorem test_decode_mul : decode 0b0000_10_0111_1000_00 = .ok (.mul .rd_ .s0) := by decide
theorem test_decode_slt : decode 0b0000_11_1000_1011_00 = .ok (.slt .s0 .t1) := by decide
theorem test_decode_addu : decode 0b0001_00_1001_0000_00 = .ok (.addu .s1 .r0) := by decide
theorem test_decode_subu : decode 0b0001_01_1010_0011_00 = .ok (.subu .t0 .fp) := by decide
theorem test_decode_mulu : decode 0b0001_10_1011_0110_00 = .ok (.mulu .t1 .rc) := by decide
theorem test_decode_sltu : decode 0b0001_11_1100_1001_00 = .ok (.sltu .hi .s1) := by decide
theorem test_decode_and : decode 0b0010_00_1101_1100_00 = .ok (.and .lo .hi) := by decide
theorem test_decode_or : decode 0b0010_01_0000_0001_00 = .ok (.or .r0 .at_) := by decide
theorem test_decode_xor : decode 0b0010_10_0001_0100_00 = .ok (.xor .at_ .ra) := by decide
theorem test_decode_nor : decode 0b0010_11_0010_0111_00 = .ok (.nor .sp .rd_) := by decide
theorem test_decode_sll : decode 0b0011_00_0011_1010_00 = .ok (.sll .fp .t0) := by decide
theorem test_decode_srl : decode 0b0011_01_0100_1101_00 = .ok (.srl .ra .lo) := by decide
theorem test_decode_sra : decode 0b0011_10_0101_0010_00 = .ok (.sra .rb .sp) := by decide
theorem test_decode_rotl : decode 0b0011_11_0110_0101_00 = .ok (.rotl .rc .rb) := by decide
theorem test_decode_addi : decode 0b0100_00_1101_100011 = .ok (.addi .lo 35) := by decide
theorem test_decode_subi : decode 0b0100_01_1100_101110 = .ok (.subi .hi 46) := by decide
theorem test_decode_muli : decode 0b0100_10_1011_111001 = .ok (.muli .t1 57) := by decide
theorem test_decode_slti : decode 0b0100_11_1010_000100 = .ok (.slti .t0 4) := by decide
theorem test_decode_addiu : decode 0b0101_00_1001_001111 = .ok (.addiu .s1 15) := by decide
theorem test_decode_subiu : decode 0b0101_01_1000_011010 = .ok (.subiu .s0 26) := by decide
theorem test_decode_muliu : decode 0b0101_10_0111_100101 = .ok (.muliu .rd_ 37) := by decide
theorem test_decode_sltiu : decode 0b0101_11_0110_110000 = .ok (.sltiu .rc 48) := by decide
theorem test_decode_andi : decode 0b0110_00_0101_111011 = .ok (.andi .rb 59) := by decide
theorem test_decode_ori : decode 0b0110_01_0100_000110 = .ok (.ori .ra 6) := by decide
theorem test_decode_xori : decode 0b0110_10_0011_010001 = .ok (.xori .fp 17) := by decide
theorem test_decode_nori : decode 0b0110_11_0010_011100 = .ok (.nori .sp 28) := by decide
theorem test_decode_slli : decode 0b0111_00_0001_100111 = .ok (.slli .at_ 39) := by decide
theorem test_decode_srli : decode 0b0111_01_0000_110010 = .ok (.srli .r0 50) := by decide
theorem test_decode_srai : decode 0b0111_10_1101_111101 = .ok (.srai .lo 61) := by decide
theorem test_decode_rotli : decode 0b0111_11_1100_001000 = .ok (.rotli .hi 8) := by decide
theorem test_decode_j : decode 0b1010_00_1000000101 = .ok (.j 0x205) := by decide
theorem test_decode_jal : decode 0b1010_01_0111111110 = .ok (.jal 0x1FE) := by decide
theorem test_decode_jr : decode 0b1010_10_1011_0000_00 = .ok (.jr .t1) := by decide
theorem test_decode_jalr : decode 0b1010_11_0101_0100_00 = .ok (.jalr .rb .ra) := by decide
theorem test_decode_beq : decode 0b1011_00_010_110_1000 = .ok (.beq .sp .rc 8) := by decide
theorem test_decode_bne : decode 0b1011_01_011_100_1111 = .ok (.bne .fp .ra 15) := by decide
theorem test_decode_lw : decode 0b1100_00_100_000_0110 = .ok (.lw .ra .r0 6) := by decide
theorem test_decode_lb : decode 0b1100_01_101_110_1101 = .ok (.lb .rb .rc 13) := by decide
theorem test_decode_sw : decode 0b1100_10_110_010_0100 = .ok (.sw .rc .sp 4) := by decide
theorem test_decode_sb : decode 0b1100_11_111_000_1011 = .ok (.sb .rd_ .r0 11) := by decide
theorem test_decode_mfhi : decode 0b1101_00_1101_0000_00 = .ok (.mfhi .lo) := by decide
theorem test_decode_mflo : decode 0b1101_01_1000_0000_00 = .ok (.mflo .s0) := by decide
theorem test_decode_mthi : decode 0b1101_10_0100_0000_00 = .ok (.mthi .ra) := by decide
theorem test_decode_mtlo : decode 0b1101_11_1001_0000_00 = .ok (.mtlo .s1) := by decide

/-- The words of the Example lines of the source and what each decodes to (95_test_vectors 1.1). -/
def sourceExamplesAlu : List (Word × Instr) :=
  [(0x0100, .add .ra .r0), (0x0500, .sub .ra .r0), (0x0900, .mul .ra .r0), (0x0D00, .slt .ra .r0),
   (0x1100, .addu .ra .r0), (0x1500, .subu .ra .r0), (0x1900, .mulu .ra .r0), (0x1D00, .sltu .ra .r0),
   (0x2100, .and .ra .r0), (0x2500, .or .ra .r0), (0x2900, .xor .ra .r0), (0x2D00, .nor .ra .r0),
   (0x3100, .sll .ra .r0), (0x3500, .srl .ra .r0), (0x3900, .sra .ra .r0), (0x3D00, .rotl .ra .r0)]

/-- The same for the immediate forms. -/
def sourceExamplesImm : List (Word × Instr) :=
  [(0x4100, .addi .ra 0), (0x4500, .subi .ra 0), (0x4900, .muli .ra 0), (0x4D00, .slti .ra 0),
   (0x5100, .addiu .ra 0), (0x5500, .subiu .ra 0), (0x5900, .muliu .ra 0), (0x5D00, .sltiu .ra 0),
   (0x6100, .andi .ra 0), (0x6500, .ori .ra 0), (0x6900, .xori .ra 0), (0x6D00, .nori .ra 0),
   (0x7100, .slli .ra 0), (0x7500, .srli .ra 0), (0x7900, .srai .ra 0), (0x7D00, .rotli .ra 0)]

/-- The same for jumps, branches, loads, stores and moves. -/
def sourceExamplesOther : List (Word × Instr) :=
  [(0xA100, .j 0x100), (0xA500, .jal 0x100), (0xA900, .jr .ra), (0xAD00, .jalr .ra .r0),
   (0xB200, .beq .ra .r0 0), (0xB600, .bne .ra .r0 0), (0xC200, .lw .ra .r0 0), (0xC600, .lb .ra .r0 0),
   (0xCA00, .sw .ra .r0 0), (0xCE00, .sb .ra .r0 0), (0xD100, .mfhi .ra), (0xD500, .mflo .ra),
   (0xD900, .mthi .ra), (0xDD00, .mtlo .ra)]

theorem test_decode_sourceExamplesAlu :
    ∀ p ∈ sourceExamplesAlu, decodeTableWord 16 p.1.toNat = some p.2 := by decide
theorem test_decode_sourceExamplesImm :
    ∀ p ∈ sourceExamplesImm, decodeTableWord 16 p.1.toNat = some p.2 := by decide
theorem test_decode_sourceExamplesOther :
    ∀ p ∈ sourceExamplesOther, decodeTableWord 16 p.1.toNat = some p.2 := by decide

/-- Reserved words (95_test_vectors 2.1 and 2.13), each with the reason the spec gives. -/
def reservedExamples : List (Word × Reject) :=
  [(0x0001, .sbzNonZero 1), (0x0002, .sbzNonZero 2), (0x0155, .sbzNonZero 1), (0xAD16, .sbzNonZero 2),
   (0x0380, .reservedRegister 14), (0x03C0, .reservedRegister 15), (0x0038, .reservedRegister 14),
   (0x003C, .reservedRegister 15), (0x4380, .reservedRegister 14), (0x7FFF, .reservedRegister 15),
   (0x43C1, .reservedRegister 15), (0xAB80, .reservedRegister 14), (0xAFB4, .reservedRegister 14),
   (0xD380, .reservedRegister 14), (0xA904, .unusedNonZero 4), (0xA901, .unusedNonZero 1),
   (0xD104, .unusedNonZero 4), (0xB800, .unassignedFunction 2), (0xBC00, .unassignedFunction 3),
   (0xBFFF, .unassignedFunction 3), (0x8000, .reservedOpcode 8), (0x9ABC, .reservedOpcode 9),
   (0xE000, .reservedOpcode 14), (0xFFFF, .reservedOpcode 15)]

theorem test_decode_reservedExamples : ∀ p ∈ reservedExamples, decode p.1 = .error p.2 := by decide

/-- Words whose two registers or whose signed field tell a swapped field (95_test_vectors 2.1). -/
theorem test_decode_hi_lo : decode 0x0334 = .ok (.add .hi .lo) := by decide
theorem test_decode_jalr_target_then_link : decode 0xAD14 = .ok (.jalr .ra .rb) := by decide
theorem test_decode_store_base_first : decode 0xCA57 = .ok (.sw .ra .rb 7) := by decide

/-- `RESERVED_FIELD = ignore` (93_implementation_defined U4 to U6): `sbz` and the unused field are ignored,
register numbers 14 and 15 are not. -/
theorem test_decode_ignore_sbz : decodeWith .ignore 0x0155 = .ok (.add .rb .rb) := by decide
theorem test_decode_ignore_unused : decodeWith .ignore 0xA904 = .ok (.jr .ra) := by decide
theorem test_decode_ignore_register : decodeWith .ignore 0x0380 = .error (.reservedRegister 14) := by decide

/-- Memory holds the low byte first (20_memory R54; the bytes of program 1, 95_test_vectors 3.1). -/
theorem test_encode_bytes_low_first : encodeBytes (.bne .rb .r0 14) = [0x8E, 0xB6] := by decide
theorem test_decode_bytes_low_first :
    decodeBytes [0x8E, 0xB6, 0x0C] = .ok (.bne .rb .r0 14, [0x0C]) := by decide
theorem test_decode_bytes_short : decodeBytes [0x8E] = .error .truncated := by decide

/-! ## One step -/

/-- The start of a row of 95_test_vectors section 2: `pc` at 0x0100, `ra` and `rb` as given. -/
def start (ra rb : Word) : State := ((State.reset.setReg .ra ra).setReg .rb rb).setPc 0x0100

/-- One step of the word placed at `pc`. -/
def run (w : Nat) (s : State) : Result := step (s.withFetchWord 16 w)

/-- The register after the step, none where it stops. -/
def regAfter (r : Reg) : Result → Option Word
  | .next t => some (t.reg r)
  | _ => none

/-- `pc` after the step. -/
def pcAfter : Result → Option Word
  | .next t => some t.pc
  | _ => none

/-- The byte written at an address, after the step. -/
def byteAfter (a : Nat) : Result → Option Byte
  | .next t => Memory.byteAt t.mem a
  | _ => none

/-- The fault a step stops in. -/
def faultOf : Result → Option Fault
  | .fault f => some f
  | _ => none

/-- Memory of the load rows of 95_test_vectors 2.11. -/
def loadMem : Memory :=
  [(0x0000, 0x11), (0x0001, 0x22), (0x0200, 0x34), (0x0201, 0x12), (0x0202, 0xCD), (0x0203, 0xAB)]

/-- Memory of its store rows. -/
def storeMem : Memory := [(0x0300, 0x55), (0x0301, 0x55), (0x0302, 0x55), (0x0303, 0x55)]

/-! Register forms (95_test_vectors 2.2 to 2.4). -/

theorem test_add_wraps : regAfter .ra (run 0x0114 (start 0x7FFF 0x0001)) = some 0x8000 := by decide
theorem test_add_same_register : regAfter .ra (run 0x0110 (start 0x4000 0)) = some 0x8000 := by decide
theorem test_sub_rd_minus_rs : regAfter .ra (run 0x0514 (start 0x0005 0x0007)) = some 0xFFFE := by decide
theorem test_sub_wraps : regAfter .ra (run 0x0514 (start 0x8000 0x0001)) = some 0x7FFF := by decide
theorem test_mul_signed : regAfter .ra (run 0x0914 (start 0x0007 0xFFFD)) = some 0xFFEB := by decide
theorem test_mul_low_half : regAfter .ra (run 0x0914 (start 0x00FF 0x0101)) = some 0xFFFF := by decide
theorem test_slt_negative : regAfter .ra (run 0x0D14 (start 0xFFFF 0x0000)) = some 0x0001 := by decide
theorem test_slt_exact : regAfter .ra (run 0x0D14 (start 0x7FFF 0x8000)) = some 0x0000 := by decide
theorem test_addu_carry_lost : regAfter .ra (run 0x1114 (start 0xFFFF 0x0001)) = some 0x0000 := by decide
theorem test_subu_borrow : regAfter .ra (run 0x1514 (start 0x0000 0x0001)) = some 0xFFFF := by decide
theorem test_mulu_low_half : regAfter .ra (run 0x1914 (start 0xFFFF 0xFFFF)) = some 0x0001 := by decide
theorem test_sltu_large : regAfter .ra (run 0x1D14 (start 0xFFFF 0x0000)) = some 0x0000 := by decide
theorem test_sltu_small : regAfter .ra (run 0x1D14 (start 0x7FFF 0x8000)) = some 0x0001 := by decide
theorem test_and_bits : regAfter .ra (run 0x2114 (start 0xF0F0 0xFF00)) = some 0xF000 := by decide
theorem test_or_bits : regAfter .ra (run 0x2514 (start 0xF0F0 0x0F0F)) = some 0xFFFF := by decide
theorem test_xor_bits : regAfter .ra (run 0x2914 (start 0xFFFF 0x00FF)) = some 0xFF00 := by decide
theorem test_nor_bits : regAfter .ra (run 0x2D14 (start 0xF0F0 0x0F00)) = some 0x000F := by decide
theorem test_sll_top : regAfter .ra (run 0x3114 (start 0x8001 0x0001)) = some 0x0002 := by decide
theorem test_sll_amount_masked : regAfter .ra (run 0x3114 (start 0x1234 0xFFF4)) = some 0x2340 := by decide
theorem test_srl_zeros : regAfter .ra (run 0x3514 (start 0xFFFF 0x0004)) = some 0x0FFF := by decide
theorem test_srl_amount_masked : regAfter .ra (run 0x3514 (start 0x1234 0x0014)) = some 0x0123 := by decide
theorem test_sra_sign : regAfter .ra (run 0x3914 (start 0x8000 0x0004)) = some 0xF800 := by decide
theorem test_sra_positive : regAfter .ra (run 0x3914 (start 0x7FFF 0x0001)) = some 0x3FFF := by decide
theorem test_rotl_three : regAfter .ra (run 0x3D14 (start 0xE001 0x0003)) = some 0x000F := by decide
theorem test_rotl_same_register : regAfter .ra (run 0x3D10 (start 0x0003 0)) = some 0x0018 := by decide
theorem test_add_into_r0 : regAfter .r0 (run 0x0010 (start 0x1234 0)) = some 0 := by decide
theorem test_mul_keeps_hi :
    regAfter .hi (run 0x0914 ((start 0x0100 0x0100).setReg .hi 0x1111)) = some 0x1111 := by decide

/-! Immediate forms (95_test_vectors 2.5 to 2.8). -/

theorem test_addi_minus_one : regAfter .ra (run 0x413F (start 0 0)) = some 0xFFFF := by decide
theorem test_addi_least : regAfter .ra (run 0x4120 (start 0x0010 0)) = some 0xFFF0 := by decide
theorem test_subi_minus_one : regAfter .ra (run 0x453F (start 0 0)) = some 0x0001 := by decide
theorem test_subi_least : regAfter .ra (run 0x4520 (start 0 0)) = some 0x0020 := by decide
theorem test_muli_minus_one : regAfter .ra (run 0x493F (start 0x0005 0)) = some 0xFFFB := by decide
theorem test_muli_wraps : regAfter .ra (run 0x491F (start 0x1000 0)) = some 0xF000 := by decide
theorem test_slti_negative : regAfter .ra (run 0x4D20 (start 0x8000 0)) = some 0x0001 := by decide
theorem test_slti_equal : regAfter .ra (run 0x4D1F (start 0x001F 0)) = some 0x0000 := by decide
theorem test_addiu_field : regAfter .ra (run 0x513F (start 0 0)) = some 0x003F := by decide
theorem test_addiu_wraps : regAfter .ra (run 0x513F (start 0xFFC1 0)) = some 0x0000 := by decide
theorem test_subiu_field : regAfter .ra (run 0x553F (start 0 0)) = some 0xFFC1 := by decide
theorem test_muliu_field : regAfter .ra (run 0x593F (start 0x0005 0)) = some 0x013B := by decide
theorem test_muliu_wraps : regAfter .ra (run 0x5920 (start 0x0800 0)) = some 0x0000 := by decide
theorem test_sltiu_below : regAfter .ra (run 0x5D3F (start 0 0)) = some 0x0001 := by decide
theorem test_sltiu_large : regAfter .ra (run 0x5D3F (start 0xFFFF 0)) = some 0x0000 := by decide
theorem test_andi_zero_extends : regAfter .ra (run 0x613F (start 0xFFFF 0)) = some 0x003F := by decide
theorem test_ori_low_bits : regAfter .ra (run 0x6534 (start 0x1200 0)) = some 0x1234 := by decide
theorem test_xori_zero_extends : regAfter .ra (run 0x693F (start 0xFFFF 0)) = some 0xFFC0 := by decide
theorem test_nori_zero_extends : regAfter .ra (run 0x6D3F (start 0 0)) = some 0xFFC0 := by decide
theorem test_slli_eight : regAfter .ra (run 0x7108 (start 0x00FF 0)) = some 0xFF00 := by decide
theorem test_slli_amount_masked : regAfter .ra (run 0x713F (start 0x1235 0)) = some 0x8000 := by decide
theorem test_srli_eight : regAfter .ra (run 0x7508 (start 0xFF00 0)) = some 0x00FF := by decide
theorem test_srli_amount_masked : regAfter .ra (run 0x751F (start 0x8000 0)) = some 0x0001 := by decide
theorem test_srai_sign : regAfter .ra (run 0x7904 (start 0x8000 0)) = some 0xF800 := by decide
theorem test_srai_amount_masked : regAfter .ra (run 0x793F (start 0x8000 0)) = some 0xFFFF := by decide
theorem test_rotli_four : regAfter .ra (run 0x7D04 (start 0x1234 0)) = some 0x2341 := by decide
theorem test_rotli_amount_masked : regAfter .ra (run 0x7D14 (start 0x1234 0)) = some 0x2341 := by decide

/-! Jumps and branches (95_test_vectors 2.9, 2.10). -/

theorem test_j_absolute : pcAfter (run 0xA000 (State.reset.setPc 0x8000)) = some 0x0000 := by decide
theorem test_jal_target : pcAfter (run 0xA420 (State.reset.setPc 0xFFFE)) = some 0x0020 := by decide
theorem test_jal_link_wraps : regAfter .ra (run 0xA420 (State.reset.setPc 0xFFFE)) = some 0x0000 := by decide
theorem test_jr_whole_register : pcAfter (run 0xA900 (start 0xBEEE 0)) = some 0xBEEE := by decide
theorem test_jalr_link :
    regAfter .ra (run 0xAD50 ((start 0x1111 0x4000).setPc 0x0200)) = some 0x0202 := by decide
theorem test_jalr_same_register :
    pcAfter (run 0xAD10 ((start 0x0300 0).setPc 0x0200)) = some 0x0300 := by decide
theorem test_beq_back : pcAfter (run 0xB258 ((start 0 0).setPc 0x0004)) = some 0xFFF4 := by decide
theorem test_beq_all_bits : pcAfter (run 0xB252 (start 0x0001 0x0101)) = some 0x0102 := by decide
theorem test_bne_back : pcAfter (run 0xB65E (start 0x0003 0)) = some 0x00FC := by decide
theorem test_bne_not_taken : pcAfter (run 0xB65E (start 0 0)) = some 0x0102 := by decide

/-! Loads, stores and moves (95_test_vectors 2.11, 2.12). -/

theorem test_lw_low_byte_first :
    regAfter .ra (run 0xC250 ((start 0 0x0200).setMem loadMem)) = some 0x1234 := by decide
theorem test_lw_address_wraps :
    regAfter .ra (run 0xC251 ((start 0 0xFFFE).setMem loadMem)) = some 0x2211 := by decide
theorem test_lb_zero_extends :
    regAfter .ra (run 0xC651 ((start 0 0x0200).setMem loadMem)) = some 0x00CD := by decide
theorem test_lb_odd_address :
    regAfter .ra (run 0xC650 ((start 0 0x0201).setMem loadMem)) = some 0x0012 := by decide
theorem test_sw_low_byte_first : byteAfter 0x0300 (run 0xCAC0 (start 0xBEEF 0x0300)) = some 0xEF := by decide
theorem test_sw_offset_back : byteAfter 0x02F1 (run 0xCAC8 (start 0xBEEF 0x0300)) = some 0xBE := by decide
theorem test_sb_low_byte :
    byteAfter 0x0301 (run 0xCEC0 ((start 0xBEEF 0x0301).setMem storeMem)) = some 0xEF := by decide
theorem test_sb_keeps_neighbour :
    byteAfter 0x0301 (run 0xCEC0 ((start 0xBEEF 0x0300).setMem storeMem)) = some 0x55 := by decide
theorem test_mfhi_copies :
    regAfter .ra (run 0xD100 ((start 0x2222 0).setReg .hi 0x1111)) = some 0x1111 := by decide
theorem test_mfhi_of_hi : regAfter .hi (run 0xD300 ((start 0 0).setReg .hi 0x1111)) = some 0x1111 := by decide
theorem test_mflo_copies :
    regAfter .ra (run 0xD500 ((start 0x2222 0).setReg .lo 0x3333)) = some 0x3333 := by decide
theorem test_mthi_copies :
    regAfter .hi (run 0xD900 ((start 0x2222 0).setReg .hi 0x1111)) = some 0x2222 := by decide
theorem test_mtlo_copies :
    regAfter .lo (run 0xDD00 ((start 0x2222 0).setReg .lo 0x3333)) = some 0x2222 := by decide

/-! Faults (95_test_vectors 2.13). -/

theorem test_fault_odd_fetch :
    faultOf (step (State.reset.setPc 0x0201)) = some (.misalignedFetch 0x0201) := by decide
theorem test_fault_reserved_word :
    faultOf (run 0x8000 (start 0 0)) = some (.illegalInstruction 0x0100 0x8000) := by decide
theorem test_fault_odd_load :
    faultOf (run 0xC250 (start 0x7777 0x0201)) = some (.misalignedAccess 0x0100 0x0201) := by decide
theorem test_fault_odd_load_into_r0 :
    faultOf (run 0xC050 (start 0 0x0201)) = some (.misalignedAccess 0x0100 0x0201) := by decide
theorem test_fault_odd_store :
    faultOf (run 0xCAC0 (start 0xBEEF 0x0301)) = some (.misalignedAccess 0x0100 0x0301) := by decide
theorem test_fault_after_fault :
    faultOf (step ((start 0 0).stopped (.misalignedFetch 0x0201))) = some (.misalignedFetch 0x0201) := by
  decide

/-! The first instruction after reset, as the host asks it. -/

theorem test_first_step_after_reset : pcAfter (step (State.reset.withFetchWord 16 0xA500)) = some 0x0100 := by
  decide

/-! Steps under the alternatives of 93_implementation_defined part 1 (log 27). -/

/-- One step under given parameters of the word at `pc`. -/
def runWith (cfg : Config) (w : Nat) (s : State) : Result := stepWith cfg (s.withFetchWord 16 w)

theorem test_reset_pc_parameter : (State.resetWith { resetPc := 0x0200 }).pc = 0x0200 := by decide
theorem test_jalr_link_parameter :
    regAfter .ra (runWith { jalrLink := 0 } 0xAD50 ((start 0x1111 0x4000).setPc 0x0200)) =
      some 0x0200 := by decide
theorem test_big_endian_load :
    regAfter .ra (stepWith { byteOrder := .big }
      ((start 0 0x0200).setMem ((0x0100, 0xC2) :: (0x0101, 0x50) :: loadMem.drop 2))) = some 0x3412 := by
  decide
theorem test_split_load_is_little :
    regAfter .ra (runWith { misalignedData := .split } 0xC250 ((start 0 0x0201).setMem loadMem)) =
      some 0xCD12 := by decide
theorem test_ignored_bit0_load :
    regAfter .ra (runWith { misalignedData := .ignoreBit0 } 0xC250 ((start 0 0x0201).setMem loadMem)) =
      some 0x1234 := by decide
theorem test_ignored_bit0_fetch :
    pcAfter (stepWith { misalignedFetch := .ignoreBit0 }
      (((start 0 0).withFetchWord 16 0xA100).setPc 0x0101)) = some 0x0100 := by decide
theorem test_refused_amount :
    faultOf (runWith { shiftAmount := .refuse } 0x3114 (start 0x1234 0x0010)) =
      some (.shiftAmountRange 0x0100 0x0010) := by decide
theorem test_ignored_sbz : regAfter .rb (runWith { reservedField := .ignore } 0x0155 (start 0 3)) = some 6 := by
  decide
theorem test_zero_memory :
    regAfter .ra (runWith { memInit := .zero } 0xC250 (start 7 0x0200)) = some 0x0000 := by decide
theorem test_harvard_fetch :
    regAfter .rb (runWith { memOrg := .harvard [(0x0100, 0x41), (0x0101, 0x45)] } 0x4141 (start 0 5)) =
      some 4 := by decide
theorem test_harvard_load :
    (loadWith { memOrg := .harvard [] } [0x4541] (start 0 0)).1.memOrg =
        .harvard [(0x0100, 0x41), (0x0101, 0x45)] ∧
      (loadWith { memOrg := .harvard [] } [0x4541] (start 0 0)).2 = start 0 0 := by decide
theorem test_stop_address : endOfRun { endOfRun := .stopAddress 0x0100 } (start 0 0) = true := by decide
theorem test_conventional_reset : (State.resetWith { flagModel := .conventional }).fl = 0 := by decide
theorem test_conventional_flags : conventionalFlags .add 0x8000 0x8000 0x0000 = 0b11101 := by decide
theorem test_flag_positions :
    [Flag.zf, .sf, .cf, .of, .eq].map (State.flag { State.reset with fl := 0x0015 }) =
      [true, false, true, false, true] := by decide

/-! The groups, formats and ALU function codes of 30_encoding R81, R86, R99. -/

theorem test_groups_of_words :
    [0x3D00, 0x4100, 0xA100, 0xC200].map groupField = [0b00, 0b01, 0b10, 0b11] := by decide
theorem test_formats_of_words :
    [0x3D00, 0x4100, 0xA500, 0xA900, 0xB600, 0xB800, 0xC200, 0xD100, 0x8000].map formatOf =
      [some .r, some .i, some .j, some .r, some .o, none, some .o, some .r, none] := by decide
theorem test_alu_codes_of_words :
    [AluFn.add, .sub, .mul, .slt, .addu, .subu, .mulu, .sltu, .and, .or, .xor, .nor, .sll, .srl, .sra,
      .rotl].map AluFn.code = sourceExamplesAlu.map (fun p => aluField p.1) := by decide
theorem test_alu_codes_of_immediate_words :
    sourceExamplesImm.map (fun p => aluField p.1) = sourceExamplesAlu.map (fun p => aluField p.1) := by
  decide

/-- Two words of program 3 (95_test_vectors 3.3) placed by the loader, and the step of the first. -/
theorem test_load_program :
    pcAfter (step (State.reset.load [0xA420, 0x2200])) = some 0x0020 ∧
      (State.reset.load [0xA420, 0x2200]).mem = [(0, 0x20), (1, 0xA4), (2, 0x00), (3, 0x22)] := by decide

/-! ## Witnesses: states and operands that meet the hypotheses of each obligation -/

/-- DecodeOfEncode: both O-type registers at the ends of their range. -/
theorem witness_DecodeOfEncode : Instr.wellFormed (.beq .r0 .rd_ 8) = true := by decide

/-- EncodeOfDecode. -/
theorem witness_EncodeOfDecode : decode 0xC7FF = .ok (.lb .rd_ .rd_ 15) := by decide

/-- A state whose `pc` is 0xFFFE and whose word there is `w`. -/
def atTop (w : Nat) (ra rb : Word) : State := ((start ra rb).setPc 0xFFFE).withFetchWord 16 w

/-- StepRunsDecodedInstruction, the second byte of the word at the top of memory. -/
theorem witness_StepRunsDecodedInstruction :
    (atTop 0x0114 1 2).status = .run ∧ isOdd (atTop 0x0114 1 2).pc = false ∧
      decode (atTop 0x0114 1 2).fetchedWord = .ok (.add .ra .rb) := by decide

/-- ReservedWordFaults. -/
theorem witness_ReservedWordFaults :
    (atTop 0x9ABC 0 0).status = .run ∧ isOdd (atTop 0x9ABC 0 0).pc = false ∧
      ReservedWord (atTop 0x9ABC 0 0).fetchedWord := by
  have h : (atTop 0x9ABC 0 0).fetchedWord = 0x9ABC := by decide
  exact ⟨by decide, by decide, by rw [h]; simp [ReservedWord]⟩

/-- ReservedWord at the ends of each of its clauses (60_exceptions R223). -/
theorem witness_ReservedWord_clauses :
    ReservedWord 0x8000 ∧ ReservedWord 0xFFFF ∧ ReservedWord 0xB800 ∧ ReservedWord 0xBFFF ∧
    ReservedWord 0x0001 ∧ ReservedWord 0xAC03 ∧ ReservedWord 0x0380 ∧ ReservedWord 0x003C ∧
    ReservedWord 0xA83F ∧ ReservedWord 0xD380 ∧ ReservedWord 0x4380 ∧ ReservedWord 0x7FFF := by
  simp [ReservedWord]

/-- Words that stand next to a reserved one and are instructions. -/
theorem witness_ReservedWord_neighbours :
    ¬ ReservedWord 0x7F7F ∧ ¬ ReservedWord 0xB7FF ∧ ¬ ReservedWord 0x0374 ∧ ¬ ReservedWord 0xDF40 ∧
    ¬ ReservedWord 0xA000 ∧ ¬ ReservedWord 0xCFFF := by
  simp [ReservedWord]

/-- OddPcFaultsBeforeMemory. -/
theorem witness_OddPcFaultsBeforeMemory :
    (State.reset.setPc 0xFFFF).status = .run ∧ isOdd (State.reset.setPc 0xFFFF).pc = true := by decide

/-- FaultLeavesStateAndEndsRun. -/
theorem witness_FaultLeavesStateAndEndsRun :
    step (State.reset.setPc 0x0001) = .fault (.misalignedFetch 0x0001) := rfl

/-- StepFaultsExactlyWhenListed: a running state for each clause. -/
theorem witness_StepFaults_odd_pc :
    (State.reset.setPc 0xFFFF).status = .run ∧
      faultOf (step (State.reset.setPc 0xFFFF)) = some (.misalignedFetch 0xFFFF) := by decide
theorem witness_StepFaults_reserved :
    (atTop 0x0001 0 0).status = .run ∧
      faultOf (step (atTop 0x0001 0 0)) = some (.illegalInstruction 0xFFFE 0x0001) := by decide
theorem witness_StepFaults_load :
    (atTop 0xC250 0 0xFFFF).status = .run ∧
      faultOf (step (atTop 0xC250 0 0xFFFF)) = some (.misalignedAccess 0xFFFE 0xFFFF) := by decide
theorem witness_StepFaults_store :
    (atTop 0xCAC0 0 0x0001).status = .run ∧
      faultOf (step (atTop 0xCAC0 0 0x0001)) = some (.misalignedAccess 0xFFFE 0x0001) := by decide

/-- InstructionsCompleteUnlessMisaligned: each side of the equivalence. -/
theorem witness_InstructionsComplete_runs :
    ∃ t, exec (.lw .ra .rb 0) (start 0 0xFFFE) = .next t := ⟨_, rfl⟩
theorem witness_InstructionsComplete_stops :
    MisalignedWordAccess (.lw .ra .rb 0) (start 0 0xFFFF) ∧
      MisalignedWordAccess (.sw .rb .ra 0) (start 0 0x0001) :=
  ⟨.inl ⟨_, _, _, rfl, by decide⟩, .inr ⟨_, _, _, rfl, by decide⟩⟩

/-- RotateMovesEveryBit: a register and an immediate amount, the last bit. -/
theorem witness_RotateMovesEveryBit :
    Reg.ra ≠ .r0 ∧ (∃ t, exec (.rotl .ra .rb) (start 0x8001 15) = .next t) ∧
      (∃ t, exec (.rotli .ra 63) (start 0x8001 0) = .next t) ∧ 15 < 16 :=
  ⟨by decide, ⟨_, rfl⟩, ⟨_, rfl⟩, by decide⟩

/-- BranchesCompareWholeRegisters: the ends of the O-type register range; taken and not taken, backward and
forward at the ends of the offset. -/
theorem witness_BranchesCompareWholeRegisters :
    Reg.low .r0 = true ∧ Reg.low .rd_ = true ∧ (start 5 5).reg .ra = (start 5 5).reg .rb ∧
      (start 1 0x0101).reg .ra ≠ (start 1 0x0101).reg .rb ∧
      (start 5 5).branchTarget 8 = 0x00F0 ∧ (start 5 5).branchTarget 7 = 0x010E := by decide

/-- CallThenReturn: the state after the call itself, for JAL and for JALR. -/
theorem witness_CallThenReturn :
    (∃ t, exec (.jal 0x020) (start 0 0) = .next t ∧ t.reg .ra = t.reg .ra) ∧
      (∃ t, exec (.jalr .rb .ra) (start 0 0x4000) = .next t ∧ t.reg .ra = t.reg .ra) :=
  ⟨⟨_, rfl, rfl⟩, ⟨_, rfl, rfl⟩⟩

/-- OddJumpCompletesThenFaults: the greatest odd target and the least and greatest odd registers. -/
theorem witness_OddJump_target :
    State.reset.status = .run ∧ isOdd ((0x3FF : BitVec 10).setWidth 16) = true := by decide
theorem witness_OddJump_register :
    (start 0x0001 0xFFFF).status = .run ∧ isOdd ((start 0x0001 0xFFFF).reg .ra) = true ∧
      isOdd ((start 0x0001 0xFFFF).reg .rb) = true := by decide

/-- LoadWordReadsTwoBytes: the greatest even address, and one that wraps. -/
theorem witness_LoadWordReadsTwoBytes :
    Reg.low .r0 = true ∧ Reg.low .rd_ = true ∧
      isOdd ((start 0 0xFFFE).effectiveAddress .rb 0) = false ∧
      isOdd ((start 0 0xFFFE).effectiveAddress .rb 1) = false ∧
      (start 0 0xFFFE).effectiveAddress .rb 1 = 0x0000 := by decide

/-- LoadByteZeroExtends. -/
theorem witness_LoadByteZeroExtends : Reg.low .rd_ = true ∧ Reg.low .r0 = true := by decide

/-- StoreWordWritesTwoBytes: the least and the greatest even address. -/
theorem witness_StoreWordWritesTwoBytes :
    Reg.low .r0 = true ∧ Reg.low .rd_ = true ∧
      isOdd ((start 0 0xFFFE).effectiveAddress .r0 0) = false ∧
      isOdd ((start 0 0xFFFE).effectiveAddress .rb 0) = false := by decide

/-- StoreByteWritesOneByte: the address of the statement's clause, at the top of memory. -/
theorem witness_StoreByteWritesOneByte :
    Reg.low .rd_ = true ∧ Reg.low .r0 = true ∧
      (0xFFFF : Word) = (start 0 0xFFFF).effectiveAddress .rb 0 ∧ (0x0000 : Word) ≠ 0xFFFF := by decide

/-- OddBaseFaultsWordAccess: the greatest odd base. -/
theorem witness_OddBaseFaultsWordAccess :
    isOdd ((start 0 0xFFFF).reg .rb) = true ∧ (start 0 0xFFFF).effectiveAddress .rb 8 = 0xFFEF := by
  decide

/-- MixedWidthAccess, first clause: LB at the stored word's address, by the base itself, and one above
it, by the base moved up one. -/
theorem witness_MixedWidth_store_word :
    isOdd ((start 0xBEEF 0xFFFE).effectiveAddress .rb 0) = false ∧
      ∃ t, exec (.sw .rb .ra 0) (start 0xBEEF 0xFFFE) = .next t ∧
        t.reg .rb = (start 0xBEEF 0xFFFE).effectiveAddress .rb 0 ∧
        (t.setReg .rb 0xFFFF).mem = t.mem ∧
        (t.setReg .rb 0xFFFF).reg .rb = (start 0xBEEF 0xFFFE).effectiveAddress .rb 0 + 1 ∧
        Reg.rc ≠ .r0 :=
  ⟨by decide, _, rfl, by decide, rfl, by decide, by decide⟩

/-- MixedWidthAccess, second clause: SB at an even address, SB one above it, then LW. -/
theorem witness_MixedWidth_store_bytes :
    isOdd 0xFFFE = false ∧ (start 0xBEEF 0xFFFE).reg .rb = 0xFFFE ∧
      ∃ t, exec (.sb .rb .ra 0) (start 0xBEEF 0xFFFE) = .next t ∧
        (t.setReg .rb 0xFFFF).mem = t.mem ∧ (t.setReg .rb 0xFFFF).reg .rb = 0xFFFE + 1 ∧
        ∃ v, exec (.sb .rb .ra 0) (t.setReg .rb 0xFFFF) = .next v ∧
          (v.setReg .rb 0xFFFE).mem = v.mem ∧ (v.setReg .rb 0xFFFE).reg .rb = 0xFFFE ∧ Reg.rc ≠ .r0 :=
  ⟨by decide, by decide, _, rfl, rfl, by decide, _, rfl, rfl, by decide, by decide⟩

/-- StoredWordIsFetched: ADDI $rb, 1 (0x4141) stored at 0x0016 and then fetched (95_test_vectors 3.7). -/
theorem witness_StoredWordIsFetched :
    isOdd ((start 0x4141 0x0016).effectiveAddress .rb 0) = false ∧
      ∃ t, exec (.sw .rb .ra 0) (start 0x4141 0x0016) = .next t ∧
        decode ((start 0x4141 0x0016).reg .ra) = .ok (.addi .rb 1) ∧
        (t.setPc 0x0016).mem = t.mem ∧ (t.setPc 0x0016).status = .run ∧
        (t.setPc 0x0016).pc = (start 0x4141 0x0016).effectiveAddress .rb 0 :=
  ⟨by decide, _, rfl, by decide, rfl, by decide, by decide⟩

/-- ExpansionAgreesUnlessSameRegister: an operand of each kind, and the sequences the source prints
(30_encoding R103). -/
theorem witness_ExpansionAgrees :
    Reg.lo ≠ .hi ∧ Reg.hi ≠ .lo ∧
      Instr.expansion (.mthi .ra) = [.and .hi .r0, .add .hi .ra] ∧
      Instr.expansion (.mflo .ra) = [.and .ra .r0, .add .ra .lo] := by decide

/-- OnlyDestinationChanges: a register and an address outside what SW writes. -/
theorem witness_OnlyDestinationChanges :
    ∃ t, exec (.sw .rb .ra 0) (start 0xBEEF 0xFFFE) = .next t ∧
      destination (.sw .rb .ra 0) ≠ some .rb ∧
      ¬ StoresTo (.sw .rb .ra 0) (start 0xBEEF 0xFFFE) 0x0000 := by
  refine ⟨_, rfl, by decide, ?_⟩
  unfold StoresTo
  decide

/-- OnlyTransfersAssignPc: at the top of memory, and a branch that is not taken. -/
theorem witness_OnlyTransfersAssignPc :
    ∃ t, exec (.add .ra .rb) ((start 0 0).setPc 0xFFFE) = .next t ∧
      ¬ AssignsPc (.add .ra .rb) ((start 0 0).setPc 0xFFFE) :=
  ⟨_, rfl, by simp [AssignsPc]⟩
theorem witness_OnlyTransfersAssignPc_not_taken :
    ∃ t, exec (.bne .ra .rb 5) (start 0 0) = .next t ∧ ¬ AssignsPc (.bne .ra .rb 5) (start 0 0) := by
  refine ⟨_, rfl, ?_⟩
  have h : (start 0 0).reg .ra = (start 0 0).reg .rb := by decide
  simp [AssignsPc]
  exact h

/-- OddPcComesOnlyFromJumps: each of its three forms. -/
theorem witness_OddPc_jump :
    ∃ t, step (atTop 0xA3FF 0 0) = .next t ∧ isOdd t.pc = true := ⟨_, rfl, by decide⟩
theorem witness_OddPc_jr :
    ∃ t, step (atTop 0xA900 0xFFFF 0) = .next t ∧ isOdd t.pc = true := ⟨_, rfl, by decide⟩
theorem witness_OddPc_jalr :
    ∃ t, step (atTop 0xAD14 0x0001 0) = .next t ∧ isOdd t.pc = true := ⟨_, rfl, by decide⟩

/-- RegisterZeroDiscardsWrites. -/
theorem witness_RegisterZeroDiscardsWrites :
    destination (.jalr .ra .r0) = some .r0 ∧ ∃ t, exec (.jalr .ra .r0) (start 0x0300 0) = .next t :=
  ⟨rfl, _, rfl⟩

/-- StepKeepsMemoryForm: a store below the cells that are listed. -/
theorem witness_StepKeepsMemoryForm :
    Memory.wf (atTop 0xCAC0 0xBEEF 0x0000).mem ∧ ∃ t, step (atTop 0xCAC0 0xBEEF 0x0000) = .next t :=
  ⟨by decide, _, rfl⟩

/-- RunNeverShowsFlags: two states that differ in `fl` and in the counter. -/
theorem witness_RunNeverShowsFlags :
    AgreeButFlags (start 1 2) { start 1 2 with fl := 0xFFFF, draws := 7 } ∧
      start 1 2 ≠ { start 1 2 with fl := 0xFFFF, draws := 7 } :=
  ⟨⟨rfl, rfl, rfl, rfl⟩, by decide⟩

/-- EndedRunStaysEnded: each transfer to itself; JAL to itself and a branch not taken do not count
(70_reset_and_hazards R255). -/
theorem witness_EndedRun_j : endOfRun config ((State.reset.setPc 0x000C).withFetchWord 16 0xA00C) = true := by
  decide
theorem witness_EndedRun_jr : endOfRun config ((start 0x0100 0).withFetchWord 16 0xA900) = true := by decide
theorem witness_EndedRun_jalr : endOfRun config ((start 0x0100 0).withFetchWord 16 0xAD00) = true := by
  decide
theorem witness_EndedRun_beq : endOfRun config ((start 0 0).withFetchWord 16 0xB000) = true := by decide
theorem witness_EndedRun_bne : endOfRun config ((start 1 0).withFetchWord 16 0xB600) = true := by decide
theorem test_endOfRun_not_jal : endOfRun config ((start 0 0).withFetchWord 16 0xA500) = false := by decide
theorem test_endOfRun_not_taken : endOfRun config ((start 0 0).withFetchWord 16 0xB600) = false := by decide

/-- ImmediateFormatFields: the first and the last opcode of group 0b01. -/
theorem witness_ImmediateFormatFields :
    groupField 0x4000 = 0b01 ∧ groupField 0x7FFF = 0b01 ∧ (4 : BitVec 4).toNat / 4 = 1 ∧
      (7 : BitVec 4).toNat / 4 = 1 := by decide

/-- ParametersChangeWhatTheyName, clause by clause. AddrBitsClause: two addresses of one cell and two of
different cells, at 4 bits and at 16. -/
theorem witness_Parameters_addrBits :
    (0x0010 : Word).toNat % 2 ^ 4 = (0xFFF0 : Word).toNat % 2 ^ 4 ∧
      (0x0010 : Word).toNat % 2 ^ 16 ≠ (0xFFF0 : Word).toNat % 2 ^ 16 := by decide

/-- ByteOrderClause: each order, an even `pc` and an even address at the top of memory. -/
theorem witness_Parameters_byteOrder :
    ({} : Config).byteOrder = .little ∧ ({ byteOrder := .big } : Config).byteOrder = .big ∧
      isOdd ((start 0 0).setPc 0xFFFE).pc = false ∧
      (0xFFFE : Word) = (start 0 0xFFFE).effectiveAddress .rb 0 ∧ isOdd 0xFFFE = false ∧
      0 < ({ byteOrder := .big } : Config).addrBits ∧
      cellOf { byteOrder := .big } 0x0000 ≠ cellOf { byteOrder := .big } 0xFFFE := by decide

/-- MemOrgClause: each organisation. -/
theorem witness_Parameters_memOrg :
    ({} : Config).memOrg = .unified ∧ ({ memOrg := .harvard [] } : Config).memOrg = .harvard [] ∧
      isOdd (start 0 0).pc = false := by decide

/-- MisalignedDataClause: the least and the greatest odd address, the base of LW and of SW. -/
theorem witness_Parameters_misalignedData :
    isOdd 0x0001 = true ∧ (0x0001 : Word) = (start 0 0x0001).effectiveAddress .rb 0 ∧
      isOdd 0xFFFF = true ∧ (0xFFFF : Word) = (start 0 0xFFFF).effectiveAddress .rb 0 ∧
      ({} : Config).misalignedData = .fault ∧
      ({ misalignedData := .split, byteOrder := .big } : Config).misalignedData = .split ∧
      ({ misalignedData := .ignoreBit0 } : Config).misalignedData = .ignoreBit0 := by decide

/-- MisalignedFetchClause: an odd `pc` at the top of memory, a word that is an instruction and one that is
reserved. -/
theorem witness_Parameters_misalignedFetch :
    ((atTop 0x0114 1 2).setPc 0xFFFF).status = .run ∧
      isOdd ((atTop 0x0114 1 2).setPc 0xFFFF).pc = true ∧
      ({ misalignedFetch := .ignoreBit0 } : Config).misalignedFetch = .ignoreBit0 ∧
      decodeWith ({ misalignedFetch := .ignoreBit0 } : Config).reservedField
        (orderedWord { misalignedFetch := .ignoreBit0 }
          (fetchByte { misalignedFetch := .ignoreBit0 } ((atTop 0x0114 1 2).setPc 0xFFFF) 0xFFFE)
          (fetchByte { misalignedFetch := .ignoreBit0 } ((atTop 0x0114 1 2).setPc 0xFFFF) 0xFFFF))
        = .ok (.add .ra .rb) ∧
      decodeWith .fault (orderedWord {} (fetchByte {} (atTop 0x9ABC 0 0) 0xFFFE)
        (fetchByte {} (atTop 0x9ABC 0 0) 0xFFFF)) = .error (.reservedOpcode 9) := by decide

/-- ShiftAmountClause: the amounts on either side of 15, of a register and of an immediate, and the
greatest of each. -/
theorem witness_Parameters_shiftAmount :
    ({ shiftAmount := .refuse } : Config).shiftAmount = .refuse ∧ ({} : Config).shiftAmount = .mask4 ∧
      ¬ 15 < ((start 0 15).reg .rb).toNat ∧ 15 < ((start 0 16).reg .rb).toNat ∧
      15 < ((start 0 0xFFFF).reg .rb).toNat ∧ ¬ 15 < (15 : BitVec 6).toNat ∧
      15 < (16 : BitVec 6).toNat ∧ 15 < (63 : BitVec 6).toNat := by decide

/-- EndOfRunClause: each convention, and a state it ends. -/
theorem witness_Parameters_endOfRun :
    endOfRun { endOfRun := .stopAddress 0xFFFF } ((start 0 0).setPc 0xFFFF) = true ∧
      endOfRun { endOfRun := .stopAddress 0xFFFF } ((start 0 0).setPc 0xFFFE) = false ∧
      endOfRun { endOfRun := .stopAddress 0x0004 } ((start 0 0).withFetchWord 16 0xB000) = false := by
  decide

/-- The parameters of FLAG_MODEL's other alternative. -/
def withFlags : Config := { flagModel := .conventional }

/-- FlagModelClause: an ALU instruction and another instruction that complete. -/
theorem witness_Parameters_flagModel :
    withFlags.flagModel = .conventional ∧
      (∃ t, execWith withFlags (.add .ra .rb) (start 0xFFFF 1) = .next t ∧
        aluOperation (.add .ra .rb) (start 0xFFFF 1) = some (.add, .ra, (start 0xFFFF 1).reg .rb)) ∧
      (∃ t, execWith withFlags (.mthi .ra) (start 0xFFFF 1) = .next t ∧
        aluOperation (.mthi .ra) (start 0xFFFF 1) = none) :=
  ⟨rfl, ⟨_, rfl, rfl⟩, ⟨_, rfl, rfl⟩⟩

/-- `fl` after an instruction under the conventional definition (93_implementation_defined G2). -/
def flagsAfter (i : Instr) (s : State) : Option Word :=
  match execWith withFlags i s with
  | .next t => some t.fl
  | .fault _ | .refused _ => none

/-- Worked by hand from G2: ZF and CF of 0xFFFF + 1; SF and OF of 0x7FFF + 1; CF and SF of 0 - 1; EQ and ZF
of 5 - 5; the last bit out of a shift by 15; nothing from a shift by 0 but SF. -/
theorem test_test_conventional_flags :
    flagsAfter (.add .ra .rb) (start 0xFFFF 1) = some 0b00101 ∧
      flagsAfter (.addi .ra 1) (start 0x7FFF 0) = some 0b01010 ∧
      flagsAfter (.sub .ra .rb) (start 0 1) = some 0b00110 ∧
      flagsAfter (.sub .ra .rb) (start 5 5) = some 0b10001 ∧
      flagsAfter (.slli .ra 15) (start 0x0002 0) = some 0b00101 ∧
      flagsAfter (.srl .ra .rb) (start 0x8001 16) = some 0b00010 := by decide

/-- ReservedFieldClause: words of each of its three kinds at the ends, with and without a field that is not
zero, and one that is fetched. -/
theorem witness_Parameters_reservedField :
    ({ reservedField := .ignore } : Config).reservedField = .ignore ∧
      (0x3D57 : Word).toNat / 4096 = 3 ∧ (0xAD17 : Word).toNat / 4096 = 10 ∧
      (0xAD17 : Word).toNat / 1024 % 4 = 3 ∧ decodeWith .ignore 0xAD17 = .ok (.jalr .ra .rb) ∧
      (0xDD3F : Word).toNat / 4096 = 13 ∧ (0xA93F : Word).toNat / 1024 % 4 = 2 ∧
      decodeWith .ignore 0xA93F = .ok (.jr .ra) ∧ decodeWith .fault 0xA93F = .error (.unusedNonZero 63) ∧
      (0x4000 : Word).toNat / 4096 = 4 ∧ decodeWith .ignore 0x4380 = .error (.reservedRegister 14) := by
  decide
theorem witness_Parameters_reservedField_fetch :
    (atTop 0xA93F 0 0).status = .run ∧
      fetch { reservedField := .ignore } (atTop 0xA93F 0 0) = .ok 0xA93F := ⟨rfl, rfl⟩

/-- MemInitClause: a written cell and one that is not, at the top of memory. -/
theorem witness_Parameters_memInit :
    ({ memInit := .zero } : Config).memInit = .zero ∧
      Memory.byteAt [(0xFFFE, 7)] (cellOf {} 0xFFFE) = some 7 ∧
      Memory.byteAt [(0xFFFE, 7)] (cellOf {} 0xFFFF) = none := by decide

end Sys2Proof.Tests
end

/-! PROOF. The words of the I format and of the J format: which instruction they decode to (30_encoding R83,
R85, R99), and where J and JAL go (R90). -/

namespace Sys2Proof

/-! ## The group and the function code as parts of `op` and `func` (R81, R99) -/

theorem groupField_eq (w : Word) : groupField w = (opField w).extractLsb' 2 2 := by
  refine BitVec.eq_of_getLsbD_eq fun k hk => ?_
  interval_cases k <;> simp [groupField, opField]

theorem opField_eq (w : Word) : opField w = groupField w ++ (aluField w).extractLsb' 2 2 := by
  unfold opField groupField aluField
  refine BitVec.eq_of_getLsbD_eq fun k hk => ?_
  interval_cases k <;> simp only [BitVec.getLsbD_extractLsb', BitVec.getLsbD_append] <;> simp

theorem funcField_eq (w : Word) : funcField w = (aluField w).extractLsb' 0 2 := by
  refine BitVec.eq_of_getLsbD_eq fun k hk => ?_
  interval_cases k <;> simp [funcField, aluField]

/-- The opcodes of group 0b01 are 0x4 to 0x7. -/
theorem groupField_eq_one_iff (w : Word) : groupField w = 0b01 ↔ (opField w).toNat / 4 = 1 := by
  rw [groupField_eq]
  generalize opField w = op
  revert op
  decide

theorem formatOf_of_group_one {w : Word} (hg : groupField w = 0b01) : formatOf w = some .i := by
  have hop : (opField w).toNat / 4 = 1 := (groupField_eq_one_iff w).mp hg
  obtain h | h | h | h : (opField w).toNat = 4 ∨ (opField w).toNat = 5 ∨ (opField w).toNat = 6 ∨
      (opField w).toNat = 7 := by omega
  all_goals simp [formatOf, h]

/-! ## The I-type words: the immediate forms of the sixteen ALU operations -/

/-- The I-type instruction of an ALU operation (R99). -/
def immediateForm : Machine.AluFn → Reg → BitVec 6 → Instr
  | .add => .addi
  | .sub => .subi
  | .mul => .muli
  | .slt => .slti
  | .addu => .addiu
  | .subu => .subiu
  | .mulu => .muliu
  | .sltu => .sltiu
  | .and => .andi
  | .or => .ori
  | .xor => .xori
  | .nor => .nori
  | .sll => .slli
  | .srl => .srli
  | .sra => .srai
  | .rotl => .rotli

theorem destination_immediateForm (f : Machine.AluFn) (rd : Reg) (imm : BitVec 6) :
    Machine.destination (immediateForm f rd imm) = some rd := by
  cases f <;> rfl

theorem immediateOf_immediateForm (f : Machine.AluFn) (rd : Reg) (imm : BitVec 6) :
    Machine.immediateOf (immediateForm f rd imm) = some imm := by
  cases f <;> rfl

/-- Every value of bits 13:10 is the function code of an operation (R99). -/
theorem exists_aluFn_code (c : BitVec 4) : ∃ f : Machine.AluFn, c = f.code := by
  have among : ∀ c : BitVec 4, ∃ f ∈ [Machine.AluFn.add, .sub, .mul, .slt, .addu, .subu, .mulu, .sltu,
      .and, .or, .xor, .nor, .sll, .srl, .sra, .rotl], c = f.code := by decide
  obtain ⟨f, -, hf⟩ := among c
  exact ⟨f, hf⟩

/-- A word of group 0b01 is decoded as the immediate form of the operation its function code names. -/
theorem decode_of_group_one {w : Word} {f : Machine.AluFn} (hg : groupField w = 0b01)
    (hf : aluField w = f.code) : decode w = decodeImm (immediateForm f) w := by
  have hop : opField w = (0b01 : BitVec 2) ++ f.code.extractLsb' 2 2 := by rw [opField_eq, hg, hf]
  have hfunc : funcField w = f.code.extractLsb' 0 2 := by rw [funcField_eq, hf]
  unfold decode decodeWith
  rw [hop, hfunc]
  cases f <;> rfl

@[simp] theorem decodeImm_encodeImm (mk : Reg → BitVec 6 → Instr) (op : BitVec 4) (func : BitVec 2)
    (rd : Reg) (imm : BitVec 6) : decodeImm mk (encodeImm op func rd imm) = .ok (mk rd imm) := by
  simp [decodeImm, Except.map]

/-- An I-type word of group 0b01 decodes to the immediate form of some ALU operation, with the word's own
register and immediate. -/
theorem decode_encodeImm {op : BitVec 4} (hop : op.toNat / 4 = 1) (func : BitVec 2) (rd : Reg)
    (imm : BitVec 6) : ∃ f, decode (encodeImm op func rd imm) = .ok (immediateForm f rd imm) := by
  have hg : groupField (encodeImm op func rd imm) = 0b01 :=
    (groupField_eq_one_iff _).mpr (by rwa [opField_encodeImm])
  obtain ⟨f, hf⟩ := exists_aluFn_code (aluField (encodeImm op func rd imm))
  exact ⟨f, by rw [decode_of_group_one hg hf, decodeImm_encodeImm]⟩

/-! ## The J-type words (R85) -/

theorem formatOf_encodeTarget_j (target : BitVec 10) : formatOf (encodeTarget 0xA 0 target) = some .j := by
  simp [formatOf]

theorem formatOf_encodeTarget_jal (target : BitVec 10) :
    formatOf (encodeTarget 0xA 1 target) = some .j := by
  simp [formatOf]

theorem decode_encodeTarget_j (target : BitVec 10) : decode (encodeTarget 0xA 0 target) = .ok (.j target) := by
  simp [decode, decodeWith]

theorem decode_encodeTarget_jal (target : BitVec 10) :
    decode (encodeTarget 0xA 1 target) = .ok (.jal target) := by
  simp [decode, decodeWith]

/-- The J-type word as its base of R95 with the target in the low ten bits. -/
theorem encodeTarget_eq_or (op : BitVec 4) (func : BitVec 2) (target : BitVec 10) :
    encodeTarget op func target = (op ++ func ++ (0 : BitVec 10)) ||| target.setWidth 16 := by
  unfold encodeTarget
  refine BitVec.eq_of_getLsbD_eq fun k hk => ?_
  interval_cases k <;> simp only [BitVec.getLsbD_or, BitVec.getLsbD_append] <;> simp

theorem decode_word_j (target : BitVec 10) : decode (0xA000 ||| target.setWidth 16) = .ok (.j target) :=
  encodeTarget_eq_or 0xA 0 target ▸ decode_encodeTarget_j target

theorem decode_word_jal (target : BitVec 10) :
    decode (0xA400 ||| target.setWidth 16) = .ok (.jal target) :=
  encodeTarget_eq_or 0xA 1 target ▸ decode_encodeTarget_jal target

end Sys2Proof

namespace Sys2Proof.Machine

/-! ## Where J and JAL go (R90) -/

theorem jumpTarget_toNat (target : BitVec 10) : (jumpTarget target).toNat = target.toNat := by
  rw [jumpTarget, BitVec.toNat_setWidth]
  omega

theorem exec_j_pc (target : BitVec 10) (s : State) :
    ∃ t, exec (.j target) s = .next t ∧ t.pc = jumpTarget target :=
  ⟨s.finish config (jumpTarget target), rfl, finish_pc ..⟩

theorem exec_jal_pc (target : BitVec 10) (s : State) :
    ∃ t, exec (.jal target) s = .next t ∧ t.pc = jumpTarget target := by
  obtain ⟨t, ht, -, -, -, -, hpc⟩ := jumpAndLink_spec .ra s.nextPc (jumpTarget target) s
  exact ⟨t, ht, hpc⟩

/-- A state whose `pc` is a jump target has it below 2^10, as the unsigned target. -/
theorem pc_toNat_of_jumpTarget {t : State} {target : BitVec 10} (h : t.pc = jumpTarget target) :
    t.pc.toNat = target.toNat ∧ t.pc.toNat ≤ 0x3FF := by
  rw [h, jumpTarget_toNat]
  exact ⟨rfl, by omega⟩

/-! ## The statements -/

/-- Settles O48: a word of group 0b01 is the immediate form of the operation its function code names. -/
theorem immediateFormatFields : Obligations.ImmediateFormatFields := by
  refine ⟨fun w => formatOf_of_group_one, fun op func rd imm hop => ?_, by decide, by decide⟩
  obtain ⟨f, hf⟩ := decode_encodeImm hop func rd imm
  exact ⟨immediateForm f rd imm, hf, destination_immediateForm f rd imm, immediateOf_immediateForm f rd imm⟩

/-- Settles O49, from the fields of an encoded J-type word. -/
theorem jumpFormatFields : Obligations.JumpFormatFields :=
  ⟨fun target => ⟨formatOf_encodeTarget_j target, decode_encodeTarget_j target,
    formatOf_encodeTarget_jal target, decode_encodeTarget_jal target⟩, by decide, by decide⟩

/-- Settles O50: both jumps end at the zero-extended target, which ten bits bound. -/
theorem jumpTargetIsUnsignedBytes : Obligations.JumpTargetIsUnsignedBytes := by
  intro target s
  obtain ⟨t, ht, htpc⟩ := exec_j_pc target s
  obtain ⟨u, hu, hupc⟩ := exec_jal_pc target s
  exact ⟨decode_word_j target, decode_word_jal target, ⟨t, ht, pc_toNat_of_jumpTarget htpc⟩,
    ⟨u, hu, pc_toNat_of_jumpTarget hupc⟩⟩

end Sys2Proof.Machine

/-! PROOF. The two-register ALU instructions of operation group 1 (30_encoding R82, R99; 40_alu_rtype R120):
the word of each decodes to it, and what it leaves, once for all sixteen operations. -/

namespace Sys2Proof

/-! ## The R-type words of group 0b00: the register forms of the sixteen ALU operations -/

/-- The R-type instruction of an ALU operation (R99). -/
def registerForm : Machine.AluFn → Reg → Reg → Instr
  | .add => .add
  | .sub => .sub
  | .mul => .mul
  | .slt => .slt
  | .addu => .addu
  | .subu => .subu
  | .mulu => .mulu
  | .sltu => .sltu
  | .and => .and
  | .or => .or
  | .xor => .xor
  | .nor => .nor
  | .sll => .sll
  | .srl => .srl
  | .sra => .sra
  | .rotl => .rotl

/-- The opcode of an operation's register form: group 0b00, then the upper half of the function code
(R81, R99). -/
def registerOp (f : Machine.AluFn) : BitVec 4 := (0b00 : BitVec 2) ++ f.code.extractLsb' 2 2

/-- The function field of an operation's register form: the lower half of the function code (R99). -/
def registerFunc (f : Machine.AluFn) : BitVec 2 := f.code.extractLsb' 0 2

theorem encode_registerForm (f : Machine.AluFn) (rd rs : Reg) :
    encode (registerForm f rd rs) = encodeTwoRegs (registerOp f) (registerFunc f) rd rs := by
  cases f <;> rfl

@[simp] theorem decodeTwoRegs_encodeTwoRegs (rf : ReservedField) (mk : Reg → Reg → Instr) (op : BitVec 4)
    (func : BitVec 2) (rd rs : Reg) :
    decodeTwoRegs rf mk (encodeTwoRegs op func rd rs) = .ok (mk rd rs) := by
  simp [decodeTwoRegs]

/-- A word with the opcode and function field of an operation's register form is decoded as that form. -/
theorem decode_of_registerOp {w : Word} {f : Machine.AluFn} (hop : opField w = registerOp f)
    (hfunc : funcField w = registerFunc f) : decode w = decodeTwoRegs .fault (registerForm f) w := by
  unfold decode decodeWith
  rw [hop, hfunc]
  cases f <;> rfl

theorem decode_encode_registerForm (f : Machine.AluFn) (rd rs : Reg) :
    decode (encode (registerForm f rd rs)) = .ok (registerForm f rd rs) := by
  rw [encode_registerForm,
    decode_of_registerOp (opField_encodeTwoRegs ..) (funcField_encodeTwoRegs ..),
    decodeTwoRegs_encodeTwoRegs]

/-- The concatenated fields of R82 are the base of R95 with the register numbers shifted into place. -/
theorem encodeTwoRegs_eq_rWord (op : BitVec 4) (func : BitVec 2) (rd rs : Reg) :
    encodeTwoRegs op func rd rs = Machine.rWord (op ++ func ++ (0 : BitVec 10)) rd rs := by
  unfold encodeTwoRegs Machine.rWord
  generalize rd.number = a, rs.number = b
  refine BitVec.eq_of_getLsbD_eq fun k hk => ?_
  interval_cases k <;>
    simp only [BitVec.getLsbD_or, BitVec.getLsbD_append, BitVec.getLsbD_shiftLeft] <;> simp

end Sys2Proof

namespace Sys2Proof.Machine

/-! ## What a two-register ALU instruction does (R120) -/

/-- The base of an operation's register form (R95): its opcode and function field, zeros below. -/
def registerBase (f : AluFn) : Word := registerOp f ++ registerFunc f ++ (0 : BitVec 10)

theorem decode_rWord_registerBase (f : AluFn) (rd rs : Reg) :
    decode (rWord (registerBase f) rd rs) = .ok (registerForm f rd rs) := by
  rw [registerBase, ← encodeTwoRegs_eq_rWord, ← encode_registerForm, decode_encode_registerForm]

/-- Every register form is the ALU template with `x[rs]` as second operand. -/
theorem exec_registerForm (f : AluFn) (rd rs : Reg) (s : State) :
    exec (registerForm f rd rs) s = aluInto config f rd (s.reg rs) s := by
  cases f <;> rfl

/-- Each of the sixteen completes at every operand and in every state, with the operation's result on the
old operands in `rd` and nothing else changed but `pc` and `fl`. -/
theorem completesRType_registerForm (f : AluFn) :
    CompletesRType (registerBase f) (registerForm f) f.result := by
  intro rd rs s
  obtain ⟨t, ht, hstep, -⟩ := aluInto_spec f rd (s.reg rs) s
  exact ⟨decode_rWord_registerBase f rd rs, t, (exec_registerForm f rd rs s).trans ht, hstep⟩

/-! ## The statements -/

/-- Settles O11: the result of ADD and of ADDU is `sumOf`. -/
theorem addWritesWrappedSum : Obligations.AddWritesWrappedSum :=
  ⟨completesRType_registerForm .add, completesRType_registerForm .addu⟩

/-- Settles O12: the result of SUB and of SUBU is `differenceOf`. -/
theorem subWritesWrappedDifference : Obligations.SubWritesWrappedDifference :=
  ⟨completesRType_registerForm .sub, completesRType_registerForm .subu⟩

/-- Settles O15: the four results are the `BitVec` operations themselves. -/
theorem logicalWritesBitwiseResult : Obligations.LogicalWritesBitwiseResult :=
  ⟨completesRType_registerForm .and, completesRType_registerForm .or, completesRType_registerForm .xor,
    completesRType_registerForm .nor⟩

end Sys2Proof.Machine

/-! PROOF. The immediate ALU instructions of operation group 2 (30_encoding R83, R87, R99; 41_alu_itype R150):
the word of each decodes to it, and what it leaves, once for all sixteen operations. -/

namespace Sys2Proof

/-! ## The I-type words of group 0b01, operation by operation -/

/-- The opcode of an operation's immediate form: group 0b01, then the upper half of the function code
(R81, R99). Its function field is the one of the register form. -/
def immediateOp (f : Machine.AluFn) : BitVec 4 := (0b01 : BitVec 2) ++ f.code.extractLsb' 2 2

theorem encode_immediateForm (f : Machine.AluFn) (rd : Reg) (imm : BitVec 6) :
    encode (immediateForm f rd imm) = encodeImm (immediateOp f) (registerFunc f) rd imm := by
  cases f <;> rfl

theorem immediateOp_toNat (f : Machine.AluFn) : (immediateOp f).toNat / 4 = 1 := by
  cases f <;> rfl

/-- The lower half of `op` and the function field are the function code of the immediate form (R99). -/
theorem immediateOp_append_registerFunc (f : Machine.AluFn) :
    (immediateOp f).extractLsb' 0 2 ++ registerFunc f = f.code := by
  cases f <;> rfl

@[simp] theorem aluField_encodeImm (op : BitVec 4) (func : BitVec 2) (rd : Reg) (imm : BitVec 6) :
    aluField (encodeImm op func rd imm) = op.extractLsb' 0 2 ++ func := by
  unfold aluField encodeImm
  generalize rd.number = a
  refine BitVec.eq_of_getLsbD_eq fun k hk => ?_
  interval_cases k <;> simp only [BitVec.getLsbD_extractLsb', BitVec.getLsbD_append] <;> simp

theorem decode_encode_immediateForm (f : Machine.AluFn) (rd : Reg) (imm : BitVec 6) :
    decode (encode (immediateForm f rd imm)) = .ok (immediateForm f rd imm) := by
  have hgroup : groupField (encode (immediateForm f rd imm)) = 0b01 := by
    rw [groupField_eq_one_iff, encode_immediateForm, opField_encodeImm, immediateOp_toNat]
  have hcode : aluField (encode (immediateForm f rd imm)) = f.code := by
    rw [encode_immediateForm, aluField_encodeImm, immediateOp_append_registerFunc]
  rw [decode_of_group_one hgroup hcode, encode_immediateForm, decodeImm_encodeImm]

/-- The concatenated fields of R83 are the base of R95 with the register number shifted into place and the
immediate in the low six bits. -/
theorem encodeImm_eq_iWord (op : BitVec 4) (func : BitVec 2) (rd : Reg) (imm : BitVec 6) :
    encodeImm op func rd imm = Machine.iWord (op ++ func ++ (0 : BitVec 10)) rd imm := by
  unfold encodeImm Machine.iWord
  generalize rd.number = a
  refine BitVec.eq_of_getLsbD_eq fun k hk => ?_
  interval_cases k <;>
    simp only [BitVec.getLsbD_or, BitVec.getLsbD_append, BitVec.getLsbD_shiftLeft] <;> simp

end Sys2Proof

namespace Sys2Proof.Machine

/-! ## What an immediate ALU instruction does (R150) -/

/-- The base of an operation's immediate form (R95): its opcode and function field, zeros below. -/
def immediateBase (f : AluFn) : Word := immediateOp f ++ registerFunc f ++ (0 : BitVec 10)

theorem decode_iWord_immediateBase (f : AluFn) (rd : Reg) (imm : BitVec 6) :
    decode (iWord (immediateBase f) rd imm) = .ok (immediateForm f rd imm) := by
  rw [immediateBase, ← encodeImm_eq_iWord, ← encode_immediateForm, decode_encode_immediateForm]

/-- The second operand of an operation's immediate form: the immediate extended as R87 says for that
instruction. -/
def immediateOperand : AluFn → BitVec 6 → Word
  | .add | .sub | .mul | .slt | .sra => signedImm
  | .addu | .subu | .mulu | .sltu | .and | .or | .xor | .nor | .sll | .srl | .rotl => unsignedImm

/-- Every immediate form is the ALU template with the extended immediate as second operand. -/
theorem exec_immediateForm (f : AluFn) (rd : Reg) (imm : BitVec 6) (s : State) :
    exec (immediateForm f rd imm) s = aluInto config f rd (immediateOperand f imm) s := by
  cases f <;> rfl

/-- Each of the sixteen completes at every operand and in every state, with the operation's result on the
old `x[rd]` and the extended immediate in `rd` and nothing else changed but `pc` and `fl`. -/
theorem completesIType_immediateForm (f : AluFn) :
    CompletesIType (immediateBase f) (immediateForm f) (fun a imm => f.result a (immediateOperand f imm)) := by
  intro rd imm s
  obtain ⟨t, ht, hstep, -⟩ := aluInto_spec f rd (immediateOperand f imm) s
  exact ⟨decode_iWord_immediateBase f rd imm, t, (exec_immediateForm f rd imm s).trans ht, hstep⟩

/-! ## The statements -/

/-- Settles O19: the signed forms add and subtract the sign-extended immediate, the unsigned forms the
zero-extended one. -/
theorem addSubImmediateExtendBySign : Obligations.AddSubImmediateExtendBySign :=
  ⟨completesIType_immediateForm .add, completesIType_immediateForm .sub,
    completesIType_immediateForm .addu, completesIType_immediateForm .subu⟩

/-- Settles O22: all four logical forms take the zero-extended immediate. -/
theorem logicalImmediateZeroExtends : Obligations.LogicalImmediateZeroExtends :=
  ⟨completesIType_immediateForm .and, completesIType_immediateForm .or, completesIType_immediateForm .xor,
    completesIType_immediateForm .nor⟩

end Sys2Proof.Machine

/-! PROOF. The decoder and the encoder as a whole (30_encoding R93 to R98): how the words of one `op` and
`func` are decoded, the round trip from either side, and the reserved words. -/

namespace Sys2Proof

/-! ## The instructions, form by form -/

/-- Case analysis on an instruction with the sixteen register forms and the sixteen immediate forms taken
together (R99). -/
theorem Instr.byForm {P : Instr → Prop} (register : ∀ f rd rs, P (registerForm f rd rs))
    (immediate : ∀ f rd imm, P (immediateForm f rd imm)) (j : ∀ target, P (.j target))
    (jal : ∀ target, P (.jal target)) (jr : ∀ rd, P (.jr rd)) (jalr : ∀ rd rs, P (.jalr rd rs))
    (beq : ∀ rd rs offset, P (.beq rd rs offset)) (bne : ∀ rd rs offset, P (.bne rd rs offset))
    (lw : ∀ rd rs offset, P (.lw rd rs offset)) (lb : ∀ rd rs offset, P (.lb rd rs offset))
    (sw : ∀ rd rs offset, P (.sw rd rs offset)) (sb : ∀ rd rs offset, P (.sb rd rs offset))
    (mfhi : ∀ rd, P (.mfhi rd)) (mflo : ∀ rd, P (.mflo rd)) (mthi : ∀ rd, P (.mthi rd))
    (mtlo : ∀ rd, P (.mtlo rd)) (i : Instr) : P i :=
  match i with
  | .add rd rs => register .add rd rs
  | .sub rd rs => register .sub rd rs
  | .mul rd rs => register .mul rd rs
  | .slt rd rs => register .slt rd rs
  | .addu rd rs => register .addu rd rs
  | .subu rd rs => register .subu rd rs
  | .mulu rd rs => register .mulu rd rs
  | .sltu rd rs => register .sltu rd rs
  | .and rd rs => register .and rd rs
  | .or rd rs => register .or rd rs
  | .xor rd rs => register .xor rd rs
  | .nor rd rs => register .nor rd rs
  | .sll rd rs => register .sll rd rs
  | .srl rd rs => register .srl rd rs
  | .sra rd rs => register .sra rd rs
  | .rotl rd rs => register .rotl rd rs
  | .addi rd imm => immediate .add rd imm
  | .subi rd imm => immediate .sub rd imm
  | .muli rd imm => immediate .mul rd imm
  | .slti rd imm => immediate .slt rd imm
  | .addiu rd imm => immediate .addu rd imm
  | .subiu rd imm => immediate .subu rd imm
  | .muliu rd imm => immediate .mulu rd imm
  | .sltiu rd imm => immediate .sltu rd imm
  | .andi rd imm => immediate .and rd imm
  | .ori rd imm => immediate .or rd imm
  | .xori rd imm => immediate .xor rd imm
  | .nori rd imm => immediate .nor rd imm
  | .slli rd imm => immediate .sll rd imm
  | .srli rd imm => immediate .srl rd imm
  | .srai rd imm => immediate .sra rd imm
  | .rotli rd imm => immediate .rotl rd imm
  | .j target => j target
  | .jal target => jal target
  | .jr rd => jr rd
  | .jalr rd rs => jalr rd rs
  | .beq rd rs offset => beq rd rs offset
  | .bne rd rs offset => bne rd rs offset
  | .lw rd rs offset => lw rd rs offset
  | .lb rd rs offset => lb rd rs offset
  | .sw rd rs offset => sw rd rs offset
  | .sb rd rs offset => sb rd rs offset
  | .mfhi rd => mfhi rd
  | .mflo rd => mflo rd
  | .mthi rd => mthi rd
  | .mtlo rd => mtlo rd

theorem wellFormed_registerForm (f : Machine.AluFn) (rd rs : Reg) :
    (registerForm f rd rs).wellFormed = true := by
  cases f <;> rfl

theorem wellFormed_immediateForm (f : Machine.AluFn) (rd : Reg) (imm : BitVec 6) :
    (immediateForm f rd imm).wellFormed = true := by
  cases f <;> rfl

/-! ## How the words of one `op` and `func` are decoded (R86, R93) -/

/-- The words of a two-register instruction: group 0b00, and JALR (R82, R93). -/
abbrev IsTwoRegs (op : BitVec 4) (func : BitVec 2) : Prop := op.toNat ≤ 3 ∨ op.toNat = 10 ∧ func.toNat = 3

/-- The words of a one-register instruction: the HI/LO moves, and JR (R82, R93). -/
abbrev IsOneReg (op : BitVec 4) (func : BitVec 2) : Prop := op.toNat = 10 ∧ func.toNat = 2 ∨ op.toNat = 13

/-- The words of group 0b01 (R83). -/
abbrev IsImmediate (op : BitVec 4) : Prop := 4 ≤ op.toNat ∧ op.toNat ≤ 7

/-- The words that are reserved by `op` and `func` alone (R96). -/
abbrev IsUnassigned (op : BitVec 4) (func : BitVec 2) : Prop :=
  op.toNat = 8 ∨ op.toNat = 9 ∨ op.toNat = 14 ∨ op.toNat = 15 ∨ op.toNat = 11 ∧ 2 ≤ func.toNat

/-- The words with no reserved field: J and JAL, and the O format (R84, R85). -/
abbrev IsUnrestricted (op : BitVec 4) (func : BitVec 2) : Prop :=
  op.toNat = 10 ∧ func.toNat ≤ 1 ∨ op.toNat = 11 ∧ func.toNat ≤ 1 ∨ op.toNat = 12

/-- The five ways the decoder reads the words of one `op` and `func`, each with the instruction it makes of
them: its format's encoding is the word's own, and what the word's `op` and `func` are. -/
inductive DecodesAs (op : BitVec 4) (func : BitVec 2) : Prop where
  | twoRegs (mk : Reg → Reg → Instr)
      (decodes : ∀ rf w, opField w = op → funcField w = func → decodeWith rf w = decodeTwoRegs rf mk w)
      (encodes : ∀ rd rs, (mk rd rs).wellFormed = true ∧ encode (mk rd rs) = encodeTwoRegs op func rd rs)
      (words : IsTwoRegs op func)
  | oneReg (mk : Reg → Instr)
      (decodes : ∀ rf w, opField w = op → funcField w = func → decodeWith rf w = decodeOneReg rf mk w)
      (encodes : ∀ rd, (mk rd).wellFormed = true ∧ encode (mk rd) = encodeOneReg op func rd)
      (words : IsOneReg op func)
  | immediate (mk : Reg → BitVec 6 → Instr)
      (decodes : ∀ rf w, opField w = op → funcField w = func → decodeWith rf w = decodeImm mk w)
      (encodes : ∀ rd imm, (mk rd imm).wellFormed = true ∧ encode (mk rd imm) = encodeImm op func rd imm)
      (words : IsImmediate op)
  | unrestricted (mk : Word → Instr)
      (decodes : ∀ rf w, opField w = op → funcField w = func → decodeWith rf w = .ok (mk w))
      (encodes : ∀ w, opField w = op → funcField w = func → (mk w).wellFormed = true ∧ encode (mk w) = w)
      (words : IsUnrestricted op func)
  | unassigned (e : Reject)
      (decodes : ∀ rf w, opField w = op → funcField w = func → decodeWith rf w = .error e)
      (words : IsUnassigned op func)

theorem decodesAs_registerForm (f : Machine.AluFn) : DecodesAs (registerOp f) (registerFunc f) := by
  refine .twoRegs (registerForm f) (fun rf w hop hfunc => ?_)
    (fun rd rs => ⟨wellFormed_registerForm f rd rs, encode_registerForm f rd rs⟩) (.inl ?_)
  · unfold decodeWith
    rw [hop, hfunc]
    cases f <;> rfl
  · cases f <;> decide

theorem decodesAs_immediateForm (f : Machine.AluFn) : DecodesAs (immediateOp f) (registerFunc f) := by
  refine .immediate (immediateForm f) (fun rf w hop hfunc => ?_)
    (fun rd imm => ⟨wellFormed_immediateForm f rd imm, encode_immediateForm f rd imm⟩) ?_
  · unfold decodeWith
    rw [hop, hfunc]
    cases f <;> rfl
  · have := immediateOp_toNat f
    unfold IsImmediate
    omega

/-! ### A word is made of its fields -/

theorem encodeTwoRegs_fields {w : Word} {rd rs : Reg} (hrd : rdField w = rd.number)
    (hrs : rsField w = rs.number) (hsbz : sbzField w = 0) :
    encodeTwoRegs (opField w) (funcField w) rd rs = w := by
  simp only [encodeTwoRegs, ← hrd, ← hrs, ← hsbz, opField, funcField, rdField, rsField, sbzField,
    BitVec.extractLsb'_append_extractLsb'_eq_extractLsb', BitVec.extractLsb'_eq_self]

theorem encodeImm_fields {w : Word} {rd : Reg} (hrd : rdField w = rd.number) :
    encodeImm (opField w) (funcField w) rd (immField w) = w := by
  simp only [encodeImm, ← hrd, opField, funcField, rdField, immField,
    BitVec.extractLsb'_append_extractLsb'_eq_extractLsb', BitVec.extractLsb'_eq_self]

theorem encodeOneReg_fields {w : Word} {rd : Reg} (hrd : rdField w = rd.number) (himm : immField w = 0) :
    encodeOneReg (opField w) (funcField w) rd = w := by
  have h := encodeImm_fields hrd
  rwa [himm] at h

theorem encodeOffset_fields (w : Word) :
    encodeOffset (opField w) (funcField w) (.ofLow (rdLowField w)) (.ofLow (rsLowField w)) (offsetField w)
      = w := by
  simp only [encodeOffset, number_ofLow, opField, funcField, rdLowField, rsLowField, offsetField,
    BitVec.extractLsb'_append_extractLsb'_eq_extractLsb', BitVec.extractLsb'_eq_self]

theorem encodeTarget_fields (w : Word) : encodeTarget (opField w) (funcField w) (targetField w) = w := by
  simp only [encodeTarget, opField, funcField, targetField,
    BitVec.extractLsb'_append_extractLsb'_eq_extractLsb', BitVec.extractLsb'_eq_self]

/-! ### The other opcodes -/

theorem decodesAs_offset {op : BitVec 4} {func : BitVec 2} {mk : Reg → Reg → BitVec 4 → Instr}
    (decodes : ∀ rf w, opField w = op → funcField w = func → decodeWith rf w = .ok (decodeOffset mk w))
    (encodes : ∀ rd rs offset, (mk rd rs offset).wellFormed = (rd.low && rs.low) ∧
      encode (mk rd rs offset) = encodeOffset op func rd rs offset)
    (words : IsUnrestricted op func) : DecodesAs op func := by
  refine .unrestricted (decodeOffset mk) decodes (fun w hop hfunc => ?_) words
  obtain ⟨hwf, henc⟩ := encodes (.ofLow (rdLowField w)) (.ofLow (rsLowField w)) (offsetField w)
  refine ⟨?_, ?_⟩
  · rw [decodeOffset, hwf, ofLow_low, ofLow_low]
    rfl
  · rw [decodeOffset, henc, ← hop, ← hfunc, encodeOffset_fields]

theorem decodesAs_target {op : BitVec 4} {func : BitVec 2} {mk : BitVec 10 → Instr}
    (decodes : ∀ rf w, opField w = op → funcField w = func → decodeWith rf w = .ok (mk (targetField w)))
    (encodes : ∀ target, (mk target).wellFormed = true ∧ encode (mk target) = encodeTarget op func target)
    (words : IsUnrestricted op func) : DecodesAs op func := by
  refine .unrestricted (fun w => mk (targetField w)) decodes (fun w hop hfunc => ?_) words
  obtain ⟨hwf, henc⟩ := encodes (targetField w)
  exact ⟨hwf, by rw [henc, ← hop, ← hfunc, encodeTarget_fields]⟩

theorem DecodesAs.forall_func {op : BitVec 4} (h0 : DecodesAs op 0) (h1 : DecodesAs op 1)
    (h2 : DecodesAs op 2) (h3 : DecodesAs op 3) (func : BitVec 2) : DecodesAs op func := by
  have hfunc : ∀ f : BitVec 2, f = 0 ∨ f = 1 ∨ f = 2 ∨ f = 3 := by decide
  obtain rfl | rfl | rfl | rfl := hfunc func <;> assumption

/-! What is left of each row of R93 below is that `decodeWith` picks the named arm at that `op` and `func`. -/

theorem decodesAs_op10 : ∀ func, DecodesAs 10 func := by
  refine DecodesAs.forall_func
    (decodesAs_target (mk := .j) ?_ (fun _ => ⟨rfl, rfl⟩) (by decide))
    (decodesAs_target (mk := .jal) ?_ (fun _ => ⟨rfl, rfl⟩) (by decide))
    (.oneReg .jr ?_ (fun _ => ⟨rfl, rfl⟩) (by decide))
    (.twoRegs .jalr ?_ (fun _ _ => ⟨rfl, rfl⟩) (by decide)) <;>
  · intro rf w hop hfunc
    unfold decodeWith
    rw [hop, hfunc]
    rfl

theorem decodesAs_op11 : ∀ func, DecodesAs 11 func := by
  refine DecodesAs.forall_func
    (decodesAs_offset (mk := .beq) ?_ (fun _ _ _ => ⟨rfl, rfl⟩) (by decide))
    (decodesAs_offset (mk := .bne) ?_ (fun _ _ _ => ⟨rfl, rfl⟩) (by decide))
    (.unassigned (.unassignedFunction 2) ?_ (by decide))
    (.unassigned (.unassignedFunction 3) ?_ (by decide)) <;>
  · intro rf w hop hfunc
    unfold decodeWith
    rw [hop, hfunc]
    rfl

theorem decodesAs_op12 : ∀ func, DecodesAs 12 func := by
  refine DecodesAs.forall_func
    (decodesAs_offset (mk := .lw) ?_ (fun _ _ _ => ⟨rfl, rfl⟩) (by decide))
    (decodesAs_offset (mk := .lb) ?_ (fun _ _ _ => ⟨rfl, rfl⟩) (by decide))
    (decodesAs_offset (mk := .sw) ?_ (fun _ _ _ => ⟨rfl, rfl⟩) (by decide))
    (decodesAs_offset (mk := .sb) ?_ (fun _ _ _ => ⟨rfl, rfl⟩) (by decide)) <;>
  · intro rf w hop hfunc
    unfold decodeWith
    rw [hop, hfunc]
    rfl

theorem decodesAs_op13 : ∀ func, DecodesAs 13 func := by
  refine DecodesAs.forall_func
    (.oneReg .mfhi ?_ (fun _ => ⟨rfl, rfl⟩) (by decide))
    (.oneReg .mflo ?_ (fun _ => ⟨rfl, rfl⟩) (by decide))
    (.oneReg .mthi ?_ (fun _ => ⟨rfl, rfl⟩) (by decide))
    (.oneReg .mtlo ?_ (fun _ => ⟨rfl, rfl⟩) (by decide)) <;>
  · intro rf w hop hfunc
    unfold decodeWith
    rw [hop, hfunc]
    rfl

theorem decodesAs_reserved {op : BitVec 4} (hop : op = 8 ∨ op = 9 ∨ op = 14 ∨ op = 15) (func : BitVec 2) :
    DecodesAs op func := by
  refine .unassigned (.reservedOpcode op) (fun rf w ho hf => ?_) ?_
  · obtain rfl | rfl | rfl | rfl := hop <;> unfold decodeWith <;> rw [ho] <;> rfl
  · obtain rfl | rfl | rfl | rfl := hop <;> (revert func; decide)

/-- The upper half of the opcodes, 0x8 to 0xF, and the two groups of the ALU (R81). -/
theorem op_cases (op : BitVec 4) : (op.extractLsb' 2 2 = 0b00 ∨ op.extractLsb' 2 2 = 0b01) ∨
    (op = 8 ∨ op = 9 ∨ op = 14 ∨ op = 15) ∨ op = 10 ∨ op = 11 ∨ op = 12 ∨ op = 13 := by
  revert op
  decide

/-- An `op` and `func` are the group and the function code of an ALU operation (R99). -/
theorem exists_aluFn_op_func (op : BitVec 4) (func : BitVec 2) : ∃ f : Machine.AluFn,
    op = op.extractLsb' 2 2 ++ f.code.extractLsb' 2 2 ∧ func = f.code.extractLsb' 0 2 := by
  obtain ⟨f, hf⟩ := exists_aluFn_code (op.extractLsb' 0 2 ++ func)
  refine ⟨f, ?_, ?_⟩ <;> rw [← hf] <;> clear hf <;> revert op func <;> decide

/-- Every `op` and `func` is decoded in one of the five ways. -/
theorem decodesAs (op : BitVec 4) (func : BitVec 2) : DecodesAs op func := by
  obtain (hgroup | hgroup) | hop | rfl | rfl | rfl | rfl := op_cases op
  · obtain ⟨f, hop, rfl⟩ := exists_aluFn_op_func op func
    rw [hgroup] at hop
    exact hop ▸ decodesAs_registerForm f
  · obtain ⟨f, hop, rfl⟩ := exists_aluFn_op_func op func
    rw [hgroup] at hop
    exact hop ▸ decodesAs_immediateForm f
  · exact decodesAs_reserved hop func
  · exact decodesAs_op10 func
  · exact decodesAs_op11 func
  · exact decodesAs_op12 func
  · exact decodesAs_op13 func

/-! ## What each format answers, and when it rejects (R98) -/

/-- A 4-bit register field names a register, or holds 14 or 15. -/
theorem regOperand_cases (f : BitVec 4) :
    (∃ r, regOperand f = .ok r ∧ f = r.number ∧ f.toNat < 14) ∨
      (∃ e, regOperand f = .error e) ∧ 14 ≤ f.toNat := by
  cases hr : Reg.ofNumber f with
  | some r =>
    have hlt : ¬ 14 ≤ f.toNat := fun h => by simp [ofNumber_eq_none.mpr h] at hr
    exact .inl ⟨r, by simp [regOperand, hr], (number_of_ofNumber hr).symm, by omega⟩
  | none => exact .inr ⟨⟨.reservedRegister f, by simp [regOperand, hr]⟩, ofNumber_eq_none.mp hr⟩

/-- A two-register word at the default: an instruction of its fields, or one of them is reserved. -/
theorem decodeTwoRegs_cases (mk : Reg → Reg → Instr) (w : Word) :
    (∃ rd rs, decodeTwoRegs .fault mk w = .ok (mk rd rs) ∧
      encodeTwoRegs (opField w) (funcField w) rd rs = w ∧
      sbzField w = 0 ∧ (rdField w).toNat < 14 ∧ (rsField w).toNat < 14) ∨
    (∃ e, decodeTwoRegs .fault mk w = .error e) ∧
      (sbzField w ≠ 0 ∨ 14 ≤ (rdField w).toNat ∨ 14 ≤ (rsField w).toNat) := by
  by_cases hsbz : sbzField w = 0
  · obtain ⟨rd, hrd, hrdn, hrdlt⟩ | ⟨⟨e, hrd⟩, hrdge⟩ := regOperand_cases (rdField w)
    · obtain ⟨rs, hrs, hrsn, hrslt⟩ | ⟨⟨e, hrs⟩, hrsge⟩ := regOperand_cases (rsField w)
      · exact .inl ⟨rd, rs, by simp [decodeTwoRegs, hsbz, hrd, hrs], encodeTwoRegs_fields hrdn hrsn hsbz,
          hsbz, hrdlt, hrslt⟩
      · exact .inr ⟨⟨e, by simp [decodeTwoRegs, hsbz, hrd, hrs]⟩, .inr (.inr hrsge)⟩
    · exact .inr ⟨⟨e, by simp [decodeTwoRegs, hsbz, hrd]⟩, .inr (.inl hrdge)⟩
  · exact .inr ⟨⟨.sbzNonZero (sbzField w), by rw [decodeTwoRegs, if_pos ⟨hsbz, rfl⟩]⟩,
      .inl hsbz⟩

/-- A one-register word at the default. -/
theorem decodeOneReg_cases (mk : Reg → Instr) (w : Word) :
    (∃ rd, decodeOneReg .fault mk w = .ok (mk rd) ∧ encodeOneReg (opField w) (funcField w) rd = w ∧
      immField w = 0 ∧ (rdField w).toNat < 14) ∨
    (∃ e, decodeOneReg .fault mk w = .error e) ∧ (immField w ≠ 0 ∨ 14 ≤ (rdField w).toNat) := by
  by_cases himm : immField w = 0
  · obtain ⟨rd, hrd, hrdn, hrdlt⟩ | ⟨⟨e, hrd⟩, hrdge⟩ := regOperand_cases (rdField w)
    · exact .inl ⟨rd, by simp [decodeOneReg, himm, hrd, Except.map], encodeOneReg_fields hrdn himm, himm,
        hrdlt⟩
    · exact .inr ⟨⟨e, by simp [decodeOneReg, himm, hrd, Except.map]⟩, .inr hrdge⟩
  · exact .inr ⟨⟨.unusedNonZero (immField w), by rw [decodeOneReg, if_pos ⟨himm, rfl⟩]⟩,
      .inl himm⟩

/-- A word of group 0b01. -/
theorem decodeImm_cases (mk : Reg → BitVec 6 → Instr) (w : Word) :
    (∃ rd, decodeImm mk w = .ok (mk rd (immField w)) ∧
      encodeImm (opField w) (funcField w) rd (immField w) = w ∧ (rdField w).toNat < 14) ∨
    (∃ e, decodeImm mk w = .error e) ∧ 14 ≤ (rdField w).toNat := by
  obtain ⟨rd, hrd, hrdn, hrdlt⟩ | ⟨⟨e, hrd⟩, hrdge⟩ := regOperand_cases (rdField w)
  · exact .inl ⟨rd, by simp [decodeImm, hrd, Except.map], encodeImm_fields hrdn, hrdlt⟩
  · exact .inr ⟨⟨e, by simp [decodeImm, hrd, Except.map]⟩, hrdge⟩

/-! ## The fields of a word as parts of its number -/

theorem opField_toNat (w : Word) : (opField w).toNat = w.toNat / 4096 := by
  have := w.isLt
  simp only [opField, BitVec.extractLsb'_toNat, Nat.shiftRight_eq_div_pow]
  omega

theorem funcField_toNat (w : Word) : (funcField w).toNat = w.toNat / 1024 % 4 := by
  simp [funcField, Nat.shiftRight_eq_div_pow]

theorem rdField_toNat (w : Word) : (rdField w).toNat = w.toNat / 64 % 16 := by
  simp [rdField, Nat.shiftRight_eq_div_pow]

theorem rsField_toNat (w : Word) : (rsField w).toNat = w.toNat / 4 % 16 := by
  simp [rsField, Nat.shiftRight_eq_div_pow]

theorem sbzField_eq_zero_iff (w : Word) : sbzField w = 0 ↔ w.toNat % 4 = 0 := by
  simp [sbzField, ← BitVec.toNat_inj]

theorem immField_eq_zero_iff (w : Word) : immField w = 0 ↔ w.toNat % 64 = 0 := by
  simp [immField, ← BitVec.toNat_inj]

/-- The conditions of 60_exceptions R223 in the fields of the word. -/
theorem reservedWord_iff (w : Word) : Machine.ReservedWord w ↔
    IsUnassigned (opField w) (funcField w) ∨
    IsTwoRegs (opField w) (funcField w) ∧
      (sbzField w ≠ 0 ∨ 14 ≤ (rdField w).toNat ∨ 14 ≤ (rsField w).toNat) ∨
    IsOneReg (opField w) (funcField w) ∧ (immField w ≠ 0 ∨ 14 ≤ (rdField w).toNat) ∨
    IsImmediate (opField w) ∧ 14 ≤ (rdField w).toNat := by
  simp only [Machine.ReservedWord, IsUnassigned, IsTwoRegs, IsOneReg, IsImmediate, opField_toNat,
    funcField_toNat, rdField_toNat, rsField_toNat, ne_eq, sbzField_eq_zero_iff, immField_eq_zero_iff,
    or_assoc]

/-! ## The decoder against the encoder -/

/-- A word is the encoding of a well-formed instruction, to which it decodes, or it is reserved and the
decoder rejects it. -/
theorem decode_cases (w : Word) :
    (∃ i, decode w = .ok i ∧ i.wellFormed = true ∧ encode i = w ∧ ¬ Machine.ReservedWord w) ∨
      (∃ e, decode w = .error e) ∧ Machine.ReservedWord w := by
  rw [reservedWord_iff]
  cases decodesAs (opField w) (funcField w) with
  | twoRegs mk decodes encodes words =>
    rw [decode, decodes .fault w rfl rfl]
    obtain ⟨rd, rs, hdec, henc, hsbz, hrd, hrs⟩ | ⟨hdec, hbad⟩ := decodeTwoRegs_cases mk w
    · obtain ⟨hwf, hmk⟩ := encodes rd rs
      refine .inl ⟨mk rd rs, hdec, hwf, hmk.trans henc, ?_⟩
      simp only [hsbz, ne_eq, not_true_eq_false, false_or]
      omega
    · exact .inr ⟨hdec, .inr (.inl ⟨words, hbad⟩)⟩
  | oneReg mk decodes encodes words =>
    rw [decode, decodes .fault w rfl rfl]
    obtain ⟨rd, hdec, henc, himm, hrd⟩ | ⟨hdec, hbad⟩ := decodeOneReg_cases mk w
    · obtain ⟨hwf, hmk⟩ := encodes rd
      refine .inl ⟨mk rd, hdec, hwf, hmk.trans henc, ?_⟩
      simp only [himm, ne_eq, not_true_eq_false, false_or]
      omega
    · exact .inr ⟨hdec, .inr (.inr (.inl ⟨words, hbad⟩))⟩
  | immediate mk decodes encodes words =>
    rw [decode, decodes .fault w rfl rfl]
    obtain ⟨rd, hdec, henc, hrd⟩ | ⟨hdec, hbad⟩ := decodeImm_cases mk w
    · obtain ⟨hwf, hmk⟩ := encodes rd (immField w)
      exact .inl ⟨mk rd (immField w), hdec, hwf, hmk.trans henc, by omega⟩
    · exact .inr ⟨hdec, .inr (.inr (.inr ⟨words, hbad⟩))⟩
  | unrestricted mk decodes encodes words =>
    obtain ⟨hwf, henc⟩ := encodes w rfl rfl
    exact .inl ⟨mk w, decodes .fault w rfl rfl, hwf, henc, by omega⟩
  | unassigned e decodes words => exact .inr ⟨⟨e, decodes .fault w rfl rfl⟩, .inl words⟩

/-! ### The encoded word decodes -/

@[simp] theorem decodeOneReg_encodeOneReg (rf : ReservedField) (mk : Reg → Instr) (op : BitVec 4)
    (func : BitVec 2) (rd : Reg) : decodeOneReg rf mk (encodeOneReg op func rd) = .ok (mk rd) := by
  simp [decodeOneReg, Except.map]

theorem decodeOffset_encodeOffset {rd rs : Reg} (h : (rd.low && rs.low) = true)
    (mk : Reg → Reg → BitVec 4 → Instr) (op : BitVec 4) (func : BitVec 2) (offset : BitVec 4) :
    decodeOffset mk (encodeOffset op func rd rs offset) = mk rd rs offset := by
  obtain ⟨hrd, hrs⟩ := Bool.and_eq_true_iff.mp h
  simp [decodeOffset, ofLow_number hrd, ofLow_number hrs]

theorem decode_encode {i : Instr} (h : i.wellFormed = true) : decode (encode i) = .ok i := by
  cases i using Instr.byForm with
  | register f rd rs => exact decode_encode_registerForm f rd rs
  | immediate f rd imm => exact decode_encode_immediateForm f rd imm
  | j target => exact decode_encodeTarget_j target
  | jal target => exact decode_encodeTarget_jal target
  | jr rd | mfhi rd | mflo rd | mthi rd | mtlo rd =>
    rw [encode]
    unfold decode decodeWith
    rw [opField_encodeOneReg, funcField_encodeOneReg]
    exact decodeOneReg_encodeOneReg ..
  | jalr rd rs =>
    rw [encode]
    unfold decode decodeWith
    rw [opField_encodeTwoRegs, funcField_encodeTwoRegs]
    exact decodeTwoRegs_encodeTwoRegs ..
  | beq rd rs offset | bne rd rs offset | lw rd rs offset | lb rd rs offset | sw rd rs offset
  | sb rd rs offset =>
    rw [encode]
    unfold decode decodeWith
    rw [opField_encodeOffset, funcField_encodeOffset]
    exact congrArg Except.ok (decodeOffset_encodeOffset h ..)

/-! ## The statements -/

/-- Settles O1, format by format. -/
theorem decodeOfEncode : Obligations.DecodeOfEncode := fun _ => decode_encode

/-- Settles O2: a word that the decoder does not reject is the encoding of what it decodes to. -/
theorem encodeOfDecode : Obligations.EncodeOfDecode := by
  intro w i h
  obtain ⟨k, hk, hwf, henc, -⟩ | ⟨⟨e, he⟩, -⟩ := decode_cases w
  · rw [hk] at h
    cases h
    exact ⟨hwf, henc⟩
  · rw [he] at h
    cases h

/-- The decoder rejects a word exactly if it is reserved. -/
theorem decode_eq_error_iff (w : Word) : (∃ e, decode w = .error e) ↔ Machine.ReservedWord w := by
  obtain ⟨i, hi, -, -, hok⟩ | ⟨he, hres⟩ := decode_cases w
  · simp [hi, hok]
  · exact iff_of_true he hres

/-- Settles O3. -/
theorem reservedWordsAreExactlyRejected : Obligations.ReservedWordsAreExactlyRejected :=
  decode_eq_error_iff

/-- Settles O4: each word is small enough to decode by evaluation. -/
theorem sampleWordsDecode : Obligations.SampleWordsDecode := by
  refine ⟨?_, ?_, ?_, ?_, ?_, ?_, ?_, ?_⟩ <;> decide

end Sys2Proof

/-! PROOF. One step of the machine (00_scope R13): what it runs, when it faults and what a fault leaves
(60_exceptions R221 to R227), and what every instruction leaves unchanged (30_encoding R91, 10_state R28). -/

namespace Sys2Proof

/-! ## Parity of addresses -/

theorem isOdd_add_of_even {b : Word} (a : Word) (hb : isOdd b = false) : isOdd (a + b) = isOdd a := by
  have hb' : ¬ b.toNat % 2 = 1 := by rw [← isOdd_iff, hb]; decide
  rw [Bool.eq_iff_iff, isOdd_iff, isOdd_iff, BitVec.toNat_add]
  omega

end Sys2Proof

namespace Sys2Proof.Machine

theorem isOdd_byteOffset (offset : BitVec 4) : isOdd (byteOffset offset) = false := by
  revert offset
  decide

theorem isOdd_nextPc (s : State) : isOdd s.nextPc = isOdd s.pc := by
  rw [nextPc_eq, isOdd_add_of_even _ (by decide)]

theorem isOdd_branchTarget (s : State) (offset : BitVec 4) : isOdd (s.branchTarget offset) = isOdd s.pc := by
  rw [branchTarget_eq, isOdd_add_of_even _ (isOdd_byteOffset offset)]

theorem isOdd_effectiveAddress (s : State) (base : Reg) (offset : BitVec 4) :
    isOdd (s.effectiveAddress base offset) = isOdd (s.reg base) := by
  rw [effectiveAddress_eq, isOdd_add_of_even _ (isOdd_byteOffset offset)]

theorem isOdd_jumpTarget (target : BitVec 10) : isOdd (jumpTarget target) = target.getLsbD 0 := by
  simp [isOdd, jumpTarget]

/-! ## The four ways a step begins -/

theorem step_of_stopped {s : State} {f : Fault} (h : s.status = .fault f) : step s = .fault f := by
  simp [step, cycle, h]

theorem step_of_odd_pc {s : State} (hrun : s.status = .run) (hodd : isOdd s.pc = true) :
    step s = .fault (.misalignedFetch s.pc) := by
  simp [step, cycle, hrun, fetch_eq, hodd, raise]

theorem step_of_reserved {s : State} (hrun : s.status = .run) (heven : isOdd s.pc = false) {e : Reject}
    (h : decode s.fetchedWord = .error e) : step s = .fault (.illegalInstruction s.pc s.fetchedWord) := by
  rw [decode] at h
  simp [step, cycle, hrun, fetch_eq, heven, h, raise]

theorem step_of_decode {s : State} (hrun : s.status = .run) (heven : isOdd s.pc = false) {i : Instr}
    (h : decode s.fetchedWord = .ok i) : step s = exec i s := by
  rw [decode] at h
  simp [step, cycle, hrun, fetch_eq, heven, h]

/-- The one thing a step can do when it answers a next state. -/
theorem step_next {s t : State} (h : step s = .next t) :
    s.status = .run ∧ isOdd s.pc = false ∧ ∃ i, decode s.fetchedWord = .ok i ∧ exec i s = .next t := by
  obtain ⟨hrun, w, i, hfetch, hdecode, hexec⟩ := cycle_next h
  rw [fetch_eq] at hfetch
  split at hfetch
  · cases hfetch
  · next heven =>
    cases hfetch
    exact ⟨hrun, by simpa using heven, i, hdecode, hexec⟩

/-! ## What a fault leaves (R221) -/

theorem afterStep_of_fault {s : State} {f : Fault} (h : step s = .fault f) : s.afterStep = s.stopped f := by
  simp [State.afterStep, h]

theorem step_stopped (s : State) (f : Fault) : step (s.stopped f) = .fault f :=
  step_of_stopped rfl

theorem afterStep_stopped (s : State) (f : Fault) : (s.stopped f).afterStep = s.stopped f :=
  afterStep_of_fault (step_stopped s f)

/-! ## What every instruction can do -/

/-- The memory an instruction leaves: only SB and SW store (20_memory R59). -/
def memoryAfter (i : Instr) (s : State) : Memory :=
  match i with
  | .sw rd rs offset => writeWord config s.mem (s.effectiveAddress rd offset) (s.reg rs)
  | .sb rd rs offset => writeByte config s.mem (s.effectiveAddress rd offset) ((s.reg rs).extractLsb' 0 8)
  | _ => s.mem

/-- What an instruction that completes leaves: every register but its destination, the memory but for its
store, the status, and the next instruction unless it is a transfer. -/
structure Completes (i : Instr) (s t : State) : Prop where
  regs : ∀ r, destination i ≠ some r → t.reg r = s.reg r
  mem : t.mem = memoryAfter i s
  status : t.status = s.status
  pc : ¬ AssignsPc i s → t.pc = s.nextPc

theorem destination_registerForm (f : AluFn) (rd rs : Reg) : destination (registerForm f rd rs) = some rd := by
  cases f <;> rfl

theorem memoryAfter_registerForm (f : AluFn) (rd rs : Reg) (s : State) :
    memoryAfter (registerForm f rd rs) s = s.mem := by
  cases f <;> rfl

theorem memoryAfter_immediateForm (f : AluFn) (rd : Reg) (imm : BitVec 6) (s : State) :
    memoryAfter (immediateForm f rd imm) s = s.mem := by
  cases f <;> rfl

/-- An instruction that writes its destination and goes on to the next one completes so. -/
theorem completes_of_writesReg {i : Instr} {s t : State} {rd : Reg} {v : Word}
    (hd : destination i = some rd) (hstores : memoryAfter i s = s.mem) (hregs : WritesReg s t rd v)
    (hmem : t.mem = s.mem) (hstatus : t.status = s.status) (hpc : ¬ AssignsPc i s → t.pc = s.nextPc) :
    Completes i s t := by
  obtain ⟨-, hother⟩ := hregs
  exact ⟨fun r hr => hother r fun e => hr (e ▸ hd), hmem.trans hstores.symm, hstatus, hpc⟩

theorem completes_of_regStep {i : Instr} {s t : State} {rd : Reg} {v : Word}
    (hd : destination i = some rd) (hstores : memoryAfter i s = s.mem) (hstep : RegStep s t rd v)
    (hmem : t.mem = s.mem) : Completes i s t := by
  obtain ⟨hregs, -, hstatus, hpc⟩ := hstep
  exact completes_of_writesReg hd hstores hregs hmem hstatus fun _ => hpc.trans (nextPc_eq s).symm

theorem regStep_setReg_finish (s : State) (rd : Reg) (v : Word) :
    RegStep s ((s.setReg rd v).finish config s.nextPc) rd v :=
  ⟨writesReg_setReg s rd v, fun _ => rfl, rfl, nextPc_eq s⟩

theorem exec_lw (rd rs : Reg) (offset : BitVec 4) (s : State) :
    exec (.lw rd rs offset) s = loadWord config rd rs offset s := rfl

theorem exec_sw (rd rs : Reg) (offset : BitVec 4) (s : State) :
    exec (.sw rd rs offset) s = storeWord config rd rs offset s := rfl

/-- Every instruction completes, but LW and SW at an odd address, which fault with that address. -/
theorem exec_cases (i : Instr) (s : State) :
    (∃ t, exec i s = .next t ∧ Completes i s t) ∨
    (∃ rd rs offset, i = .lw rd rs offset ∧ isOdd (s.effectiveAddress rs offset) = true ∧
      exec i s = .fault (.misalignedAccess s.pc (s.effectiveAddress rs offset))) ∨
    ∃ rd rs offset, i = .sw rd rs offset ∧ isOdd (s.effectiveAddress rd offset) = true ∧
      exec i s = .fault (.misalignedAccess s.pc (s.effectiveAddress rd offset)) := by
  cases i using Instr.byForm with
  | register f rd rs =>
    obtain ⟨t, ht, hstep, hmem⟩ := aluInto_spec f rd (s.reg rs) s
    exact .inl ⟨t, (exec_registerForm f rd rs s).trans ht, completes_of_regStep
      (destination_registerForm f rd rs) (memoryAfter_registerForm f rd rs s) hstep hmem⟩
  | immediate f rd imm =>
    obtain ⟨t, ht, hstep, hmem⟩ := aluInto_spec f rd (immediateOperand f imm) s
    exact .inl ⟨t, (exec_immediateForm f rd imm s).trans ht, completes_of_regStep
      (destination_immediateForm f rd imm) (memoryAfter_immediateForm f rd imm s) hstep hmem⟩
  | j target => exact .inl ⟨_, rfl, fun _ _ => rfl, rfl, rfl, fun h => absurd (.inl ⟨target, .inl rfl⟩) h⟩
  | jal target =>
    exact .inl ⟨_, rfl, completes_of_writesReg rfl rfl (writesReg_setReg s .ra s.nextPc) rfl rfl
      fun h => absurd (.inl ⟨target, .inr rfl⟩) h⟩
  | jr rd => exact .inl ⟨_, rfl, fun _ _ => rfl, rfl, rfl, fun h => absurd (.inr (.inl ⟨rd, rfl⟩)) h⟩
  | jalr rd rs =>
    exact .inl ⟨_, rfl, completes_of_writesReg rfl rfl (writesReg_setReg s rs _) rfl rfl
      fun h => absurd (.inr (.inr (.inl ⟨rd, rs, rfl⟩))) h⟩
  | beq rd rs offset =>
    refine .inl ⟨_, rfl, fun _ _ => rfl, rfl, rfl, fun h => if_neg fun heq => h ?_⟩
    exact .inr (.inr (.inr ⟨rd, rs, offset, .inl ⟨rfl, of_decide_eq_true heq⟩⟩))
  | bne rd rs offset =>
    refine .inl ⟨_, rfl, fun _ _ => rfl, rfl, rfl, fun h => if_neg fun hne => h ?_⟩
    exact .inr (.inr (.inr ⟨rd, rs, offset, .inr ⟨rfl, of_decide_eq_true hne⟩⟩))
  | lw rd rs offset =>
    rw [exec_lw, loadWord_eq]
    split
    · next hodd => exact .inr (.inl ⟨rd, rs, offset, rfl, hodd, rfl⟩)
    · exact .inl ⟨_, rfl, completes_of_regStep rfl rfl (regStep_setReg_finish s rd _) rfl⟩
  | lb rd rs offset =>
    exact .inl ⟨_, rfl, completes_of_regStep rfl rfl (regStep_setReg_finish s rd _) rfl⟩
  | sw rd rs offset =>
    rw [exec_sw, storeWord_eq]
    split
    · next hodd => exact .inr (.inr ⟨rd, rs, offset, rfl, hodd, rfl⟩)
    · exact .inl ⟨_, rfl, fun _ _ => rfl, rfl, rfl, fun _ => rfl⟩
  | sb rd rs offset => exact .inl ⟨_, rfl, fun _ _ => rfl, rfl, rfl, fun _ => rfl⟩
  | mfhi rd | mflo rd | mthi rd | mtlo rd =>
    exact .inl ⟨_, rfl, completes_of_regStep rfl rfl (regStep_setReg_finish s _ _) rfl⟩

theorem completes_of_exec {i : Instr} {s t : State} (h : exec i s = .next t) : Completes i s t := by
  obtain ⟨u, hu, hc⟩ | ⟨_, _, _, -, -, hf⟩ | ⟨_, _, _, -, -, hf⟩ := exec_cases i s
  · cases hu.symm.trans h
    exact hc
  · cases hf.symm.trans h
  · cases hf.symm.trans h

theorem exec_lw_of_odd {s : State} {rs : Reg} {offset : BitVec 4}
    (h : isOdd (s.effectiveAddress rs offset) = true) (rd : Reg) :
    exec (.lw rd rs offset) s = .fault (.misalignedAccess s.pc (s.effectiveAddress rs offset)) := by
  rw [exec_lw, loadWord_eq, if_pos h]

theorem exec_sw_of_odd {s : State} {rd : Reg} {offset : BitVec 4}
    (h : isOdd (s.effectiveAddress rd offset) = true) (rs : Reg) :
    exec (.sw rd rs offset) s = .fault (.misalignedAccess s.pc (s.effectiveAddress rd offset)) := by
  rw [exec_sw, storeWord_eq, if_pos h]

/-- The faults of an instruction itself (R225). -/
theorem exec_eq_fault_iff {i : Instr} {s : State} {f : Fault} : exec i s = .fault f ↔
    (∃ rd rs offset, i = .lw rd rs offset ∧ isOdd (s.effectiveAddress rs offset) = true ∧
      f = .misalignedAccess s.pc (s.effectiveAddress rs offset)) ∨
    ∃ rd rs offset, i = .sw rd rs offset ∧ isOdd (s.effectiveAddress rd offset) = true ∧
      f = .misalignedAccess s.pc (s.effectiveAddress rd offset) := by
  constructor
  · intro h
    obtain ⟨t, ht, -⟩ | ⟨rd, rs, offset, hi, hodd, hf⟩ | ⟨rd, rs, offset, hi, hodd, hf⟩ := exec_cases i s
    · cases ht.symm.trans h
    · cases hf.symm.trans h
      exact .inl ⟨rd, rs, offset, hi, hodd, rfl⟩
    · cases hf.symm.trans h
      exact .inr ⟨rd, rs, offset, hi, hodd, rfl⟩
  · rintro (⟨rd, rs, offset, rfl, hodd, rfl⟩ | ⟨rd, rs, offset, rfl, hodd, rfl⟩)
    · exact exec_lw_of_odd hodd rd
    · exact exec_sw_of_odd hodd rs

theorem exec_next_iff (i : Instr) (s : State) : (∃ t, exec i s = .next t) ↔ ¬ MisalignedWordAccess i s := by
  constructor
  · rintro ⟨t, ht⟩ (⟨rd, rs, offset, rfl, hodd⟩ | ⟨rd, rs, offset, rfl, hodd⟩)
    · cases (exec_lw_of_odd hodd rd).symm.trans ht
    · cases (exec_sw_of_odd hodd rs).symm.trans ht
  · intro h
    obtain ⟨t, ht, -⟩ | ⟨rd, rs, offset, hi, hodd, -⟩ | ⟨rd, rs, offset, hi, hodd, -⟩ := exec_cases i s
    · exact ⟨t, ht⟩
    · exact absurd (.inl ⟨rd, rs, offset, hi, hodd⟩) h
    · exact absurd (.inr ⟨rd, rs, offset, hi, hodd⟩) h

theorem exec_ne_refused (i : Instr) (s : State) (r : Refusal) : exec i s ≠ .refused r := by
  intro h
  obtain ⟨t, ht, -⟩ | ⟨_, _, _, -, -, hf⟩ | ⟨_, _, _, -, -, hf⟩ := exec_cases i s
  · cases ht.symm.trans h
  · cases hf.symm.trans h
  · cases hf.symm.trans h

/-- A running machine's step: an odd `pc`, a reserved word, or an instruction that is run. -/
theorem step_cases {s : State} (hrun : s.status = .run) :
    (isOdd s.pc = true ∧ step s = .fault (.misalignedFetch s.pc)) ∨
    (isOdd s.pc = false ∧ ReservedWord s.fetchedWord ∧
      step s = .fault (.illegalInstruction s.pc s.fetchedWord)) ∨
    (isOdd s.pc = false ∧ ¬ ReservedWord s.fetchedWord ∧
      ∃ i, decode s.fetchedWord = .ok i ∧ step s = exec i s) := by
  cases hpc : isOdd s.pc with
  | true => exact .inl ⟨rfl, step_of_odd_pc hrun hpc⟩
  | false =>
    obtain ⟨i, hi, -, -, hok⟩ | ⟨⟨e, he⟩, hres⟩ := decode_cases s.fetchedWord
    · exact .inr (.inr ⟨rfl, hok, i, hi, step_of_decode hrun hpc hi⟩)
    · exact .inr (.inl ⟨rfl, hres, step_of_reserved hrun hpc he⟩)

/-! ## The memory a step leaves -/

theorem wf_memoryAfter {s : State} (h : Memory.wf s.mem) (i : Instr) : Memory.wf (memoryAfter i s) := by
  unfold memoryAfter
  split
  · exact wf_writeWord h ..
  · exact wf_writeByte h ..
  · exact h

/-- A byte that the instruction does not store reads as before. -/
theorem readByte_memoryAfter {i : Instr} {s : State} {a : Word} (h : ¬ StoresTo i s a) :
    readByte config (memoryAfter i s) a = s.byte a := by
  unfold memoryAfter
  split
  · obtain ⟨hne, hne1⟩ := not_or.mp h
    rw [readByte_writeWord, if_neg hne1, if_neg hne, byte_eq_readByte]
  · rw [readByte_writeByte]
    exact if_neg h
  · rfl

/-! ## The statements -/

/-- Settles O44: only SB and SW change the memory, and a write keeps its form. -/
theorem stepKeepsMemoryForm : Obligations.StepKeepsMemoryForm := by
  intro s t hwf h
  obtain ⟨hrun, -, i, -, hexec⟩ := step_next h
  have hc := completes_of_exec hexec
  exact ⟨hc.mem ▸ wf_memoryAfter hwf i, hrun, hc.status.trans hrun⟩

/-- Settles O9, from the three ways a running machine's step begins. -/
theorem stepFaultsExactlyWhenListed : Obligations.StepFaultsExactlyWhenListed := by
  intro s f hrun
  obtain ⟨hodd, hstep⟩ | ⟨heven, hres, hstep⟩ | ⟨heven, hok, i, hi, hstep⟩ := step_cases hrun
  · simpa [hstep, hodd] using eq_comm
  · obtain ⟨e, he⟩ := (decode_eq_error_iff _).mpr hres
    simpa [hstep, heven, hres, he] using eq_comm
  · simp [hstep, heven, hok, hi, exec_eq_fault_iff, exists_or]

/-- Settles O10. -/
theorem instructionsCompleteUnlessMisaligned : Obligations.InstructionsCompleteUnlessMisaligned := by
  refine ⟨exec_next_iff, fun s r h => ?_⟩
  cases hs : s.status with
  | fault f => simp [step_of_stopped hs] at h
  | run =>
    obtain ⟨-, hstep⟩ | ⟨-, -, hstep⟩ | ⟨-, -, i, -, hstep⟩ := step_cases hs
    · simp [hstep] at h
    · simp [hstep] at h
    · exact exec_ne_refused i s r (hstep ▸ h)

/-- Settles O40. -/
theorem onlyDestinationChanges : Obligations.OnlyDestinationChanges := by
  intro i s t h
  have hc := completes_of_exec h
  refine ⟨hc.regs, fun a ha => ?_, hc.status⟩
  rw [byte_eq_readByte, hc.mem, readByte_memoryAfter ha]

/-- Settles O41. -/
theorem onlyTransfersAssignPc : Obligations.OnlyTransfersAssignPc :=
  fun _ _ _ h => (completes_of_exec h).pc

/-- Settles O42: the next address and every branch target have the parity of `pc`, which is even where an
instruction is fetched. -/
theorem oddPcComesOnlyFromJumps : Obligations.OddPcComesOnlyFromJumps := by
  intro s t h hodd
  obtain ⟨-, heven, i, hi, hexec⟩ := step_next h
  refine ⟨i, hi, ?_⟩
  by_cases hassigns : AssignsPc i s
  · obtain ⟨target, rfl | rfl⟩ | ⟨rd, rfl⟩ | ⟨rd, rs, rfl⟩ | ⟨rd, rs, offset, ⟨rfl, heq⟩ | ⟨rfl, hne⟩⟩ :=
      hassigns
    · cases hexec
      exact .inl ⟨target, .inl rfl, (isOdd_jumpTarget target).symm.trans hodd⟩
    · cases hexec
      exact .inl ⟨target, .inr rfl, (isOdd_jumpTarget target).symm.trans hodd⟩
    · cases hexec
      exact .inr (.inl ⟨rd, rfl, hodd⟩)
    · cases hexec
      exact .inr (.inr ⟨rd, rs, rfl, hodd⟩)
    · cases hexec
      simp [heq, isOdd_branchTarget, heven] at hodd
    · cases hexec
      simp [hne, isOdd_branchTarget, heven] at hodd
  · rw [(completes_of_exec hexec).pc hassigns, isOdd_nextPc, heven] at hodd
    cases hodd

/-- Settles O43: no register but the destination changes, and register 0 always reads 0. -/
theorem registerZeroDiscardsWrites : Obligations.RegisterZeroDiscardsWrites := by
  refine fun s => ⟨reg_r0 s, fun i t hd h r => ?_⟩
  by_cases hr : r = .r0
  · rw [hr, reg_r0, reg_r0]
  · exact (completes_of_exec h).regs r (by simpa [hd] using Ne.symm hr)

/-- Settles O5. -/
theorem stepRunsDecodedInstruction : Obligations.StepRunsDecodedInstruction :=
  fun _ _ hrun heven hi => step_of_decode hrun heven hi

/-- Settles O8. -/
theorem faultLeavesStateAndEndsRun : Obligations.FaultLeavesStateAndEndsRun := by
  intro s f h
  rw [afterStep_of_fault h]
  exact ⟨rfl, step_stopped s f, afterStep_stopped s f⟩

/-- Settles O6: the decoder rejects the word (O3), and the fault stops the machine (O8). -/
theorem reservedWordFaults : Obligations.ReservedWordFaults := by
  intro s hrun heven hres
  obtain ⟨e, he⟩ := (decode_eq_error_iff s.fetchedWord).mpr hres
  have hstep := step_of_reserved hrun heven he
  obtain ⟨hafter, -, hagain⟩ := faultLeavesStateAndEndsRun s _ hstep
  exact ⟨hstep, hafter, hagain⟩

/-- Settles O7. -/
theorem oddPcFaultsBeforeMemory : Obligations.OddPcFaultsBeforeMemory :=
  fun s m hrun hodd => step_of_odd_pc (s := s.setMem m) hrun hodd

end Sys2Proof.Machine

/-! PROOF. Runs of the machine: no instruction reads `fl` or the model's counter of free values (10_state
R33), and a run that has ended changes nothing else any more (70_reset_and_hazards R255). -/

namespace Sys2Proof.Machine

/-! ## The shared operations under any parameters -/

/-- The ALU template refuses an amount above 15 under `SHIFT_AMOUNT = refuse`. -/
theorem aluInto_of_refused {cfg : Config} {f : AluFn} {b : Word}
    (h : f.isShift = true ∧ cfg.shiftAmount = .refuse ∧ 15 < b.toNat) (rd : Reg) (s : State) :
    aluInto cfg f rd b s = .fault (.shiftAmountRange s.pc b) :=
  if_pos h

/-- Otherwise it completes. -/
theorem aluInto_of_accepted {cfg : Config} {f : AluFn} {b : Word}
    (h : ¬ (f.isShift = true ∧ cfg.shiftAmount = .refuse ∧ 15 < b.toNat)) (rd : Reg) (s : State) :
    aluInto cfg f rd b s = .next (((s.setReg rd (f.result (s.reg rd) b)).leaveFlags cfg
      (conventionalFlags f (s.reg rd) b (f.result (s.reg rd) b))).setPc s.nextPc) :=
  if_neg h

theorem loadWord_of_error {cfg : Config} {s : State} {rs : Reg} {offset : BitVec 4} {f : Fault}
    (h : wordAddress cfg s.pc (s.effectiveAddress rs offset) = .error f) (rd : Reg) :
    loadWord cfg rd rs offset s = .fault f := by
  rw [loadWord, h]
  rfl

theorem loadWord_of_ok {cfg : Config} {s : State} {rs : Reg} {offset : BitVec 4} {a : Word}
    (h : wordAddress cfg s.pc (s.effectiveAddress rs offset) = .ok a) (rd : Reg) :
    loadWord cfg rd rs offset s = .next ((s.setReg rd (readWord cfg s.mem a)).finish cfg s.nextPc) := by
  rw [loadWord, h]

theorem storeWord_of_error {cfg : Config} {s : State} {rd : Reg} {offset : BitVec 4} {f : Fault}
    (h : wordAddress cfg s.pc (s.effectiveAddress rd offset) = .error f) (rs : Reg) :
    storeWord cfg rd rs offset s = .fault f := by
  rw [storeWord, h]
  rfl

theorem storeWord_of_ok {cfg : Config} {s : State} {rd : Reg} {offset : BitVec 4} {a : Word}
    (h : wordAddress cfg s.pc (s.effectiveAddress rd offset) = .ok a) (rs : Reg) :
    storeWord cfg rd rs offset s =
      .next ((s.setMem (writeWord cfg s.mem a (s.reg rs))).finish cfg s.nextPc) := by
  rw [storeWord, h]

theorem execWith_registerForm (cfg : Config) (f : AluFn) (rd rs : Reg) (s : State) :
    execWith cfg (registerForm f rd rs) s = aluInto cfg f rd (s.reg rs) s := by
  cases f <;> rfl

theorem execWith_immediateForm (cfg : Config) (f : AluFn) (rd : Reg) (imm : BitVec 6) (s : State) :
    execWith cfg (immediateForm f rd imm) s = aluInto cfg f rd (immediateOperand f imm) s := by
  cases f <;> rfl

theorem execWith_lw (cfg : Config) (rd rs : Reg) (offset : BitVec 4) (s : State) :
    execWith cfg (.lw rd rs offset) s = loadWord cfg rd rs offset s := rfl

theorem execWith_sw (cfg : Config) (rd rs : Reg) (offset : BitVec 4) (s : State) :
    execWith cfg (.sw rd rs offset) s = storeWord cfg rd rs offset s := rfl

/-! ## States that agree but for the flags -/

/-- The state with another `fl` and another count of the free values drawn. -/
def State.withFlags (s : State) (fl : Word) (draws : Nat) : State := { s with fl := fl, draws := draws }

theorem agreeButFlags_iff {s t : State} : AgreeButFlags s t ↔ ∃ fl draws, t = s.withFlags fl draws := by
  constructor
  · rintro ⟨hregs, hpc, hmem, hstatus⟩
    refine ⟨t.fl, t.draws, ?_⟩
    rw [State.withFlags, hregs, hpc, hmem, hstatus]
  · rintro ⟨fl, draws, rfl⟩
    exact ⟨rfl, rfl, rfl, rfl⟩

section
variable (cfg : Config) (model : FlagModel) (s : State) (fl : Word) (draws : Nat)

theorem aluInto_outcomesAgree (f : AluFn) (rd : Reg) (b : Word) :
    OutcomesAgree (aluInto { cfg with flagModel := model } f rd b s)
      (aluInto cfg f rd b (s.withFlags fl draws)) := by
  by_cases h : f.isShift = true ∧ cfg.shiftAmount = .refuse ∧ 15 < b.toNat
  · rw [aluInto_of_refused (cfg := { cfg with flagModel := model }) h, aluInto_of_refused h]
    rfl
  · rw [aluInto_of_accepted (cfg := { cfg with flagModel := model }) h, aluInto_of_accepted h]
    exact ⟨rfl, rfl, rfl, rfl⟩

theorem loadWord_outcomesAgree (rd rs : Reg) (offset : BitVec 4) :
    OutcomesAgree (loadWord { cfg with flagModel := model } rd rs offset s)
      (loadWord cfg rd rs offset (s.withFlags fl draws)) := by
  cases h : wordAddress cfg s.pc (s.effectiveAddress rs offset) with
  | error f =>
    rw [loadWord_of_error (cfg := { cfg with flagModel := model }) h,
      loadWord_of_error (s := s.withFlags fl draws) h]
    rfl
  | ok a =>
    rw [loadWord_of_ok (cfg := { cfg with flagModel := model }) h,
      loadWord_of_ok (s := s.withFlags fl draws) h]
    exact ⟨rfl, rfl, rfl, rfl⟩

theorem storeWord_outcomesAgree (rd rs : Reg) (offset : BitVec 4) :
    OutcomesAgree (storeWord { cfg with flagModel := model } rd rs offset s)
      (storeWord cfg rd rs offset (s.withFlags fl draws)) := by
  cases h : wordAddress cfg s.pc (s.effectiveAddress rd offset) with
  | error f =>
    rw [storeWord_of_error (cfg := { cfg with flagModel := model }) h,
      storeWord_of_error (s := s.withFlags fl draws) h]
    rfl
  | ok a =>
    rw [storeWord_of_ok (cfg := { cfg with flagModel := model }) h,
      storeWord_of_ok (s := s.withFlags fl draws) h]
    exact ⟨rfl, rfl, rfl, rfl⟩

/-- No meaning depends on `fl`, on the free values drawn or on `FLAG_MODEL`, but in what it leaves there. -/
theorem execWith_outcomesAgree (i : Instr) :
    OutcomesAgree (execWith { cfg with flagModel := model } i s)
      (execWith cfg i (s.withFlags fl draws)) := by
  cases i using Instr.byForm with
  | register f rd rs =>
    rw [execWith_registerForm, execWith_registerForm]
    exact aluInto_outcomesAgree cfg model s fl draws f rd (s.reg rs)
  | immediate f rd imm =>
    rw [execWith_immediateForm, execWith_immediateForm]
    exact aluInto_outcomesAgree cfg model s fl draws f rd (immediateOperand f imm)
  | lw rd rs offset => exact loadWord_outcomesAgree cfg model s fl draws rd rs offset
  | sw rd rs offset => exact storeWord_outcomesAgree cfg model s fl draws rd rs offset
  | j target | jal target => exact ⟨rfl, rfl, rfl, rfl⟩
  | jr rd | mfhi rd | mflo rd | mthi rd | mtlo rd => exact ⟨rfl, rfl, rfl, rfl⟩
  | jalr rd rs => exact ⟨rfl, rfl, rfl, rfl⟩
  | beq rd rs offset | bne rd rs offset | lb rd rs offset | sb rd rs offset =>
    exact ⟨rfl, rfl, rfl, rfl⟩

end

theorem exec_outcomesAgree (i : Instr) (s : State) (fl : Word) (draws : Nat) :
    OutcomesAgree (exec i s) (exec i (s.withFlags fl draws)) := by
  rw [exec_eq_execWith, exec_eq_execWith]
  exact execWith_outcomesAgree config config.flagModel s fl draws i

theorem step_outcomesAgree {s t : State} (h : AgreeButFlags s t) : OutcomesAgree (step s) (step t) := by
  obtain ⟨fl, draws, rfl⟩ := agreeButFlags_iff.mp h
  cases hs : s.status with
  | fault f =>
    rw [step_of_stopped hs, step_of_stopped (s := s.withFlags fl draws) hs]
    rfl
  | run =>
    obtain ⟨hodd, hstep⟩ | ⟨heven, hres, hstep⟩ | ⟨heven, -, i, hi, hstep⟩ := step_cases hs
    · rw [hstep, step_of_odd_pc (s := s.withFlags fl draws) hs hodd]
      rfl
    · obtain ⟨e, he⟩ := (decode_eq_error_iff _).mpr hres
      rw [hstep, step_of_reserved (s := s.withFlags fl draws) hs heven he]
      rfl
    · rw [hstep, step_of_decode (s := s.withFlags fl draws) hs heven hi]
      exact exec_outcomesAgree i s fl draws

/-! ## Runs -/

theorem run_succ_of_next {s t : State} (h : step s = .next t) (n : Nat) :
    Sys2Proof.core.run (n + 1) s = Sys2Proof.core.run n t := by
  have hcore : Sys2Proof.core.step s = .next t := h
  simp only [Host.Core.run, hcore]

theorem run_succ_of_fault {s : State} {f : Fault} (h : step s = .fault f) (n : Nat) :
    Sys2Proof.core.run (n + 1) s = .fault f := by
  have hcore : Sys2Proof.core.step s = .fault f := h
  simp only [Host.Core.run, hcore]

theorem run_succ_of_refused {s : State} {r : Refusal} (h : step s = .refused r) (n : Nat) :
    Sys2Proof.core.run (n + 1) s = .refused r := by
  have hcore : Sys2Proof.core.step s = .refused r := h
  simp only [Host.Core.run, hcore]

/-- The three ways two outcomes can agree. -/
theorem outcomesAgree_cases {r q : Result} (h : OutcomesAgree r q) :
    (∃ s t, r = .next s ∧ q = .next t ∧ AgreeButFlags s t) ∨ (∃ f, r = .fault f ∧ q = .fault f) ∨
      ∃ e, r = .refused e ∧ q = .refused e := by
  cases r with
  | next s =>
    cases q with
    | next t => exact .inl ⟨s, t, rfl, rfl, h⟩
    | fault g => exact h.elim
    | refused e => exact h.elim
  | fault f =>
    cases q with
    | next t => exact h.elim
    | fault g => exact .inr (.inl ⟨f, rfl, congrArg _ (Eq.symm h)⟩)
    | refused e => exact h.elim
  | refused e =>
    cases q with
    | next t => exact h.elim
    | fault g => exact h.elim
    | refused d => exact .inr (.inr ⟨e, rfl, congrArg _ (Eq.symm h)⟩)

theorem run_outcomesAgree (n : Nat) : ∀ {s t : State}, AgreeButFlags s t →
    OutcomesAgree (Sys2Proof.core.run n s) (Sys2Proof.core.run n t) := by
  induction n with
  | zero => exact fun h => h
  | succ n ih =>
    intro s t h
    obtain ⟨s', t', hs, ht, h'⟩ | ⟨f, hs, ht⟩ | ⟨e, hs, ht⟩ := outcomesAgree_cases (step_outcomesAgree h)
    · rw [run_succ_of_next hs, run_succ_of_next ht]
      exact ih h'
    · rw [run_succ_of_fault hs, run_succ_of_fault ht]
      rfl
    · rw [run_succ_of_refused hs, run_succ_of_refused ht]
      rfl

/-! ## The end of a run (R255) -/

/-- The end of a run by a transfer to itself. -/
theorem endOfRun_jumpToSelf_iff {cfg : Config} (h : cfg.endOfRun = .jumpToSelf) (s : State) :
    endOfRun cfg s = true ↔ s.status = .run ∧
      ∃ w i, fetch cfg s = .ok w ∧ decodeWith cfg.reservedField w = .ok i ∧ selfTransfer i s = true := by
  unfold endOfRun
  cases hs : s.status with
  | fault f => simp
  | run =>
    cases hw : fetch cfg s with
    | error f => simp [h]
    | ok w => cases hi : decodeWith cfg.reservedField w <;> simp [h, hi]

/-- A transfer to itself completes and leaves all but the flags. -/
theorem exec_of_selfTransfer {i : Instr} {s : State} (h : selfTransfer i s = true) :
    ∃ t, exec i s = .next t ∧ AgreeButFlags s t := by
  cases i with
  | j target => exact ⟨_, rfl, rfl, (of_decide_eq_true h).symm, rfl, rfl⟩
  | jr rd => exact ⟨_, rfl, rfl, (of_decide_eq_true h).symm, rfl, rfl⟩
  | jalr rd rs =>
    obtain ⟨rfl, hpc⟩ := of_decide_eq_true h
    exact ⟨_, rfl, rfl, hpc.symm, rfl, rfl⟩
  | beq rd rs offset =>
    obtain ⟨htaken, hpc⟩ := of_decide_eq_true h
    exact ⟨_, rfl, rfl, by simp [htaken, hpc], rfl, rfl⟩
  | bne rd rs offset =>
    obtain ⟨htaken, hpc⟩ := of_decide_eq_true h
    exact ⟨_, rfl, rfl, by simp [htaken, hpc], rfl, rfl⟩
  | _ => cases h

theorem selfTransfer_withFlags (i : Instr) (s : State) (fl : Word) (draws : Nat) :
    selfTransfer i (s.withFlags fl draws) = selfTransfer i s := by
  cases i <;> rfl

theorem endOfRun_of_agree {s t : State} (h : AgreeButFlags s t) (hs : endOfRun config s = true) :
    endOfRun config t = true := by
  obtain ⟨fl, draws, rfl⟩ := agreeButFlags_iff.mp h
  obtain ⟨hrun, w, i, hw, hi, hself⟩ := (endOfRun_jumpToSelf_iff rfl s).mp hs
  exact (endOfRun_jumpToSelf_iff rfl _).mpr
    ⟨hrun, w, i, hw, hi, (selfTransfer_withFlags i s fl draws).trans hself⟩

theorem step_of_endOfRun {s : State} (h : endOfRun config s = true) :
    ∃ t, step s = .next t ∧ AgreeButFlags s t ∧ endOfRun config t = true := by
  obtain ⟨hrun, w, i, hw, hi, hself⟩ := (endOfRun_jumpToSelf_iff rfl s).mp h
  obtain ⟨t, ht, hagree⟩ := exec_of_selfTransfer hself
  refine ⟨t, ?_, hagree, endOfRun_of_agree hagree h⟩
  simp only [step, cycle, hrun, hw, hi, ht]

theorem AgreeButFlags.trans {s t u : State} (h : AgreeButFlags s t) (h' : AgreeButFlags t u) :
    AgreeButFlags s u := by
  obtain ⟨fl, draws, rfl⟩ := agreeButFlags_iff.mp h
  exact h'

/-! ## The statements -/

/-- Settles O46, by induction on the number of steps: one step keeps the agreement. -/
theorem runNeverShowsFlags : Obligations.RunNeverShowsFlags :=
  fun n _ _ h => run_outcomesAgree n h

/-- Settles O47, by induction on the number of steps: one step from an ended state ends in one. -/
theorem endedRunStaysEnded : Obligations.EndedRunStaysEnded := by
  intro s n h
  induction n generalizing s with
  | zero => exact ⟨s, rfl, ⟨rfl, rfl, rfl, rfl⟩, h⟩
  | succ n ih =>
    obtain ⟨t, ht, hagree, hend⟩ := step_of_endOfRun h
    obtain ⟨u, hu, hagree', hend'⟩ := ih t hend
    exact ⟨u, (run_succ_of_next ht n).trans hu, hagree.trans hagree', hend'⟩

end Sys2Proof.Machine

/-! PROOF. The values of the ALU (40_alu_rtype R121 to R140, 41_alu_itype R150 to R167): the integer formulas
of the spec as operations on words, and the instructions that write them. -/

namespace Sys2Proof.Machine

/-! ## Shifts and rotates (R136 to R140) -/

theorem shiftLeftOf_eq (a b : Word) : shiftLeftOf a b = a <<< (b.toNat % 16) := by
  refine BitVec.eq_of_toNat_eq ?_
  rw [shiftLeftOf, shiftAmount_eq, BitVec.toNat_shiftLeft, Nat.shiftLeft_eq]
  have hcast : uval a * 2 ^ (b.toNat % 16) = ((a.toNat * 2 ^ (b.toNat % 16) : Nat) : Int) := by
    simp [uval]
  rw [hcast, trunc16, BitVec.ofInt_natCast, BitVec.toNat_ofNat]

theorem shiftRightOf_eq (a b : Word) : shiftRightOf a b = a >>> (b.toNat % 16) := by
  refine BitVec.eq_of_toNat_eq ?_
  rw [shiftRightOf, shiftAmount_eq, BitVec.toNat_ushiftRight, Nat.shiftRight_eq_div_pow]
  have hcast : Int.fdiv (uval a) (2 ^ (b.toNat % 16)) = ((a.toNat / 2 ^ (b.toNat % 16) : Nat) : Int) := by
    rw [Int.fdiv_eq_ediv_of_nonneg _ (by positivity)]
    simp [uval]
  rw [hcast, trunc16, BitVec.ofInt_natCast, BitVec.toNat_ofNat]
  exact Nat.mod_eq_of_lt (lt_of_le_of_lt (Nat.div_le_self _ _) a.isLt)

theorem shiftRightArithOf_eq (a b : Word) : shiftRightArithOf a b = a.sshiftRight (b.toNat % 16) := by
  have hfloor : Int.fdiv (sval a) (2 ^ (b.toNat % 16)) = sval (a.sshiftRight (b.toNat % 16)) := by
    rw [Int.fdiv_eq_ediv_of_nonneg _ (by positivity), sval, sval, BitVec.toInt_sshiftRight,
      Int.shiftRight_eq_div_pow]
    norm_cast
  rw [shiftRightArithOf, shiftAmount_eq, hfloor, trunc16_sval]

theorem rotateLeftOf_eq (a b : Word) : rotateLeftOf a b = a.rotateLeft (b.toNat % 16) := by
  have hlt : b.toNat % 16 < 16 := by omega
  rw [rotateLeftOf, shiftAmount_eq, BitVec.rotateLeft_eq_rotateLeftAux_of_lt hlt, BitVec.rotateLeftAux]
  split
  · next h => simp [h, BitVec.ushiftRight_eq_zero]
  · rfl

/-- A rotation by `n` moves bit `k` to bit `k + n`, around the word (R140). -/
theorem getLsbD_rotateLeft_add (a : Word) {k n : Nat} (hk : k < 16) (hn : n < 16) :
    (a.rotateLeft n).getLsbD ((k + n) % 16) = a.getLsbD k := by
  rw [BitVec.getLsbD_rotateLeft, Nat.mod_eq_of_lt hn]
  by_cases hwrap : k + n < 16
  · have hto : (k + n) % 16 = k + n := Nat.mod_eq_of_lt hwrap
    have hstay : ¬ k + n < n := by omega
    simp [hto, hstay, hwrap]
  · have hto : (k + n) % 16 = k + n - 16 := by omega
    have henter : k + n - 16 < n := by omega
    have hfrom : 16 - n + (k + n - 16) = k := by omega
    simp [hto, henter, hfrom]

/-! ## The extended immediate (R87, R167) -/

theorem sval_signedImm (imm : BitVec 6) : sval (signedImm imm) = imm.toInt :=
  BitVec.toInt_signExtend_of_le (by decide)

theorem toNat_unsignedImm (imm : BitVec 6) : (unsignedImm imm).toNat = imm.toNat := by
  rw [unsignedImm, BitVec.toNat_setWidth]
  omega

theorem uval_unsignedImm (imm : BitVec 6) : uval (unsignedImm imm) = imm.toNat := by
  rw [uval, toNat_unsignedImm]

/-- Both extensions keep the low four bits, the amount of a shift. -/
theorem toNat_signedImm_mod (imm : BitVec 6) : (signedImm imm).toNat % 16 = imm.toNat % 16 := by
  revert imm
  decide

/-! ## What the ALU instructions write -/

theorem CompletesRType.of_eq {base : Word} {i : Reg → Reg → Instr} {f g : Word → Word → Word}
    (h : CompletesRType base i f) (hfg : ∀ a b, f a b = g a b) : CompletesRType base i g :=
  funext₂ hfg ▸ h

theorem CompletesIType.of_eq {base : Word} {i : Reg → BitVec 6 → Instr} {f g : Word → BitVec 6 → Word}
    (h : CompletesIType base i f) (hfg : ∀ a imm, f a imm = g a imm) : CompletesIType base i g :=
  funext₂ hfg ▸ h

/-- The ALU template at the machine's parameters as what it leaves in the registers. -/
theorem aluInto_regs (f : AluFn) (rd : Reg) (b : Word) (s : State) :
    ∃ t, aluInto config f rd b s = .next t ∧ t.regs = s.regs.set rd (f.result (s.reg rd) b) :=
  ⟨_, aluInto_eq f rd b s, rfl⟩

theorem reg_of_regs_eq_set {s t : State} {rd : Reg} {v : Word} (h : t.regs = s.regs.set rd v) :
    t.reg rd = if rd = .r0 then 0 else v := by
  rw [State.reg, h]
  exact reg_setReg_same s rd v

/-- What an ALU instruction that completes leaves in a destination other than register 0. -/
theorem reg_of_aluInto {f : AluFn} {rd : Reg} {b : Word} {s t : State} (hrd : rd ≠ .r0)
    (h : aluInto config f rd b s = .next t) : t.reg rd = f.result (s.reg rd) b := by
  obtain ⟨u, hu, hregs⟩ := aluInto_regs f rd b s
  rw [hu] at h
  cases h
  rw [reg_of_regs_eq_set hregs, if_neg hrd]

/-! ## The statements -/

/-- Settles O16: each shift of the spec's integers is the shift of the word. -/
theorem shiftsUseLowFourBits : Obligations.ShiftsUseLowFourBits :=
  ⟨(completesRType_registerForm .sll).of_eq shiftLeftOf_eq,
    (completesRType_registerForm .srl).of_eq shiftRightOf_eq,
    (completesRType_registerForm .sra).of_eq shiftRightArithOf_eq,
    (completesRType_registerForm .rotl).of_eq rotateLeftOf_eq⟩

/-- Settles O23: the extended immediate has the low four bits of the immediate. -/
theorem shiftImmediatesUseLowFourBits : Obligations.ShiftImmediatesUseLowFourBits := by
  refine ⟨(completesIType_immediateForm .sll).of_eq fun a imm => ?_,
    (completesIType_immediateForm .srl).of_eq fun a imm => ?_,
    (completesIType_immediateForm .sra).of_eq fun a imm => ?_,
    (completesIType_immediateForm .rotl).of_eq fun a imm => ?_⟩
  · exact toNat_unsignedImm imm ▸ shiftLeftOf_eq a (unsignedImm imm)
  · exact toNat_unsignedImm imm ▸ shiftRightOf_eq a (unsignedImm imm)
  · exact toNat_signedImm_mod imm ▸ shiftRightArithOf_eq a (signedImm imm)
  · exact toNat_unsignedImm imm ▸ rotateLeftOf_eq a (unsignedImm imm)

/-- Settles O17: both rotates write the rotation of the word. -/
theorem rotateMovesEveryBit : Obligations.RotateMovesEveryBit := by
  refine ⟨fun rd rs s t hrd h k hk => ?_, fun rd imm s t hrd h k hk => ?_⟩
  · rw [reg_of_aluInto (f := .rotl) (b := s.reg rs) hrd h, AluFn.result, rotateLeftOf_eq]
    exact getLsbD_rotateLeft_add _ hk (Nat.mod_lt _ (by decide))
  · rw [reg_of_aluInto (f := .rotl) (b := unsignedImm imm) hrd h, AluFn.result, rotateLeftOf_eq,
      toNat_unsignedImm]
    exact getLsbD_rotateLeft_add _ hk (Nat.mod_lt _ (by decide))

/-- Settles O18: the signed and the unsigned exact result are equal modulo 2^16, while -1 is below 1 and
0xFFFF is not. -/
theorem signedAndUnsignedFormsAgree : Obligations.SignedAndUnsignedFormsAgree := by
  refine ⟨fun rd rs s => ?_, .ra, .rb, (State.reset.setReg .ra 0xFFFF).setReg .rb 1, _, _, rfl, rfl,
    by decide⟩
  obtain ⟨t1, h1, r1⟩ := aluInto_regs .add rd (s.reg rs) s
  obtain ⟨t2, h2, r2⟩ := aluInto_regs .addu rd (s.reg rs) s
  obtain ⟨t3, h3, r3⟩ := aluInto_regs .sub rd (s.reg rs) s
  obtain ⟨t4, h4, r4⟩ := aluInto_regs .subu rd (s.reg rs) s
  obtain ⟨t5, h5, r5⟩ := aluInto_regs .mul rd (s.reg rs) s
  obtain ⟨t6, h6, r6⟩ := aluInto_regs .mulu rd (s.reg rs) s
  have hmul : AluFn.mul.result (s.reg rd) (s.reg rs) = AluFn.mulu.result (s.reg rd) (s.reg rs) :=
    (signedProductOf_eq _ _).trans (unsignedProductOf_eq _ _).symm
  rw [hmul] at r5
  exact ⟨t1, t2, t3, t4, t5, t6, h1, h2, r1.trans r2.symm, h3, h4, r3.trans r4.symm, h5, h6,
    r5.trans r6.symm, reg_of_regs_eq_set r1, reg_of_regs_eq_set r3, reg_of_regs_eq_set r5⟩

/-- Settles O13: the results of MUL and MULU are the truncated products. -/
theorem mulWritesLowProduct : Obligations.MulWritesLowProduct :=
  ⟨completesRType_registerForm .mul, completesRType_registerForm .mulu⟩

/-- Settles O14: the results of SLT and SLTU are the two comparisons. -/
theorem setOnLessThanComparesExactly : Obligations.SetOnLessThanComparesExactly :=
  ⟨completesRType_registerForm .slt, completesRType_registerForm .sltu⟩

/-- Settles O20: the extended immediate has the immediate's own value. -/
theorem mulImmediateWritesLowProduct : Obligations.MulImmediateWritesLowProduct :=
  ⟨(completesIType_immediateForm .mul).of_eq fun a imm =>
      congrArg (fun n => trunc16 (sval a * n)) (sval_signedImm imm),
    (completesIType_immediateForm .mulu).of_eq fun a imm =>
      congrArg (fun n => trunc16 (uval a * n)) (uval_unsignedImm imm)⟩

/-- Settles O21: the extended immediate has the immediate's own value. -/
theorem setOnLessThanImmediate : Obligations.SetOnLessThanImmediate :=
  ⟨(completesIType_immediateForm .slt).of_eq fun a imm =>
      congrArg (fun n => if sval a < n then 1 else 0) (sval_signedImm imm),
    (completesIType_immediateForm .sltu).of_eq fun a imm =>
      congrArg (fun n => if uval a < n then 1 else 0) (uval_unsignedImm imm)⟩

end Sys2Proof.Machine

/-! PROOF. Jumps and branches (42_jump_branch), loads, stores and HI/LO moves (43_load_store_move): the word
of each and what it leaves. -/

namespace Sys2Proof

/-! ## The words of these formats as the base of R95 with the operands in place -/

theorem encodeOneReg_eq_rWord (op : BitVec 4) (func : BitVec 2) (rd : Reg) :
    encodeOneReg op func rd = Machine.rWord (op ++ func ++ (0 : BitVec 10)) rd .r0 := by
  rw [← encodeTwoRegs_eq_rWord, encodeOneReg, encodeTwoRegs]
  generalize rd.number = a
  refine BitVec.eq_of_getLsbD_eq fun k hk => ?_
  interval_cases k <;> simp only [BitVec.getLsbD_append] <;> simp [Reg.number]

theorem number_high_bit_of_low {r : Reg} (h : r.low = true) : r.number[3] = false := by
  revert h
  cases r <;> decide

theorem encodeOffset_eq_oWord {rd rs : Reg} (hrd : rd.low = true) (hrs : rs.low = true) (op : BitVec 4)
    (func : BitVec 2) (offset : BitVec 4) :
    encodeOffset op func rd rs offset = Machine.oWord (op ++ func ++ (0 : BitVec 10)) rd rs offset := by
  have ha := number_high_bit_of_low hrd
  have hb := number_high_bit_of_low hrs
  unfold encodeOffset Machine.oWord
  generalize rd.number = a, rs.number = b at ha hb
  refine BitVec.eq_of_getLsbD_eq fun k hk => ?_
  interval_cases k <;>
    simp only [BitVec.getLsbD_or, BitVec.getLsbD_append, BitVec.getLsbD_shiftLeft] <;> simp [ha, hb]

end Sys2Proof

namespace Sys2Proof.Machine

theorem decode_rWord_jalr (rd rs : Reg) : decode (rWord 0xAC00 rd rs) = .ok (.jalr rd rs) :=
  encodeTwoRegs_eq_rWord 0xA 3 rd rs ▸ decode_encode (i := .jalr rd rs) rfl

theorem decode_rWord_jr (rd : Reg) : decode (rWord 0xA800 rd .r0) = .ok (.jr rd) :=
  encodeOneReg_eq_rWord 0xA 2 rd ▸ decode_encode (i := .jr rd) rfl

theorem decode_rWord_mfhi (rd : Reg) : decode (rWord 0xD000 rd .r0) = .ok (.mfhi rd) :=
  encodeOneReg_eq_rWord 0xD 0 rd ▸ decode_encode (i := .mfhi rd) rfl

theorem decode_rWord_mflo (rd : Reg) : decode (rWord 0xD400 rd .r0) = .ok (.mflo rd) :=
  encodeOneReg_eq_rWord 0xD 1 rd ▸ decode_encode (i := .mflo rd) rfl

theorem decode_rWord_mthi (rd : Reg) : decode (rWord 0xD800 rd .r0) = .ok (.mthi rd) :=
  encodeOneReg_eq_rWord 0xD 2 rd ▸ decode_encode (i := .mthi rd) rfl

theorem decode_rWord_mtlo (rd : Reg) : decode (rWord 0xDC00 rd .r0) = .ok (.mtlo rd) :=
  encodeOneReg_eq_rWord 0xD 3 rd ▸ decode_encode (i := .mtlo rd) rfl

/-- An O-type instruction decodes from its base with the register numbers and the offset in place. -/
theorem decode_oWord {i : Instr} {op : BitVec 4} {func : BitVec 2} {rd rs : Reg} {offset : BitVec 4}
    (hrd : rd.low = true) (hrs : rs.low = true) (henc : encode i = encodeOffset op func rd rs offset)
    (hwf : i.wellFormed = (rd.low && rs.low)) :
    decode (oWord (op ++ func ++ (0 : BitVec 10)) rd rs offset) = .ok i := by
  rw [← encodeOffset_eq_oWord hrd hrs, ← henc]
  exact decode_encode (by rw [hwf, hrd, hrs]; rfl)

/-! ## The address of an offset (R88, R187, R200) -/

theorem sval_byteOffset (offset : BitVec 4) : sval (byteOffset offset) = 2 * offset.toInt := by
  revert offset
  decide

theorem branchTarget_eq_trunc16 (s : State) (offset : BitVec 4) :
    s.branchTarget offset = trunc16 (uval s.pc + 2 * offset.toInt) := by
  rw [State.branchTarget, sval_byteOffset]

theorem effectiveAddress_eq_trunc16 (s : State) (base : Reg) (offset : BitVec 4) :
    s.effectiveAddress base offset = trunc16 (uval (s.reg base) + 2 * offset.toInt) := by
  rw [State.effectiveAddress, sval_byteOffset]

theorem effectiveAddress_zero (s : State) (base : Reg) : s.effectiveAddress base 0 = s.reg base := by
  have h : byteOffset 0 = 0 := by decide
  rw [effectiveAddress_eq, h, add_zero]

/-! ## What each instruction leaves -/

theorem exec_j (target : BitVec 10) (s : State) :
    ∃ t, exec (.j target) s = .next t ∧ PcStep s t (jumpTarget target) :=
  ⟨_, rfl, finish_spec s _⟩

theorem exec_jr (rd : Reg) (s : State) : ∃ t, exec (.jr rd) s = .next t ∧ PcStep s t (s.reg rd) :=
  ⟨_, rfl, finish_spec s _⟩

theorem exec_jal (target : BitVec 10) (s : State) :
    ∃ t, exec (.jal target) s = .next t ∧ WritesReg s t .ra s.nextPc ∧ SameMemory s t ∧ t.mem = s.mem ∧
      t.status = s.status ∧ t.pc = jumpTarget target :=
  jumpAndLink_spec .ra s.nextPc (jumpTarget target) s

/-- The target of JALR is the register before the link is written (D8). -/
theorem exec_jalr (rd rs : Reg) (s : State) :
    ∃ t, exec (.jalr rd rs) s = .next t ∧ WritesReg s t rs s.nextPc ∧ SameMemory s t ∧ t.mem = s.mem ∧
      t.status = s.status ∧ t.pc = s.reg rd :=
  jumpAndLink_spec rs s.nextPc (s.reg rd) s

theorem exec_beq (rd rs : Reg) (offset : BitVec 4) (s : State) :
    ∃ t, exec (.beq rd rs offset) s = .next t ∧
      PcStep s t (if s.reg rd = s.reg rs then s.branchTarget offset else s.nextPc) := by
  refine ⟨_, rfl, ?_⟩
  have h := finish_spec s (if s.reg rd = s.reg rs then s.branchTarget offset else s.nextPc)
  simpa using h

theorem exec_bne (rd rs : Reg) (offset : BitVec 4) (s : State) :
    ∃ t, exec (.bne rd rs offset) s = .next t ∧
      PcStep s t (if s.reg rd ≠ s.reg rs then s.branchTarget offset else s.nextPc) := by
  refine ⟨_, rfl, ?_⟩
  have h := finish_spec s (if s.reg rd ≠ s.reg rs then s.branchTarget offset else s.nextPc)
  simpa using h

theorem exec_lw_of_even {s : State} {rs : Reg} {offset : BitVec 4}
    (h : isOdd (s.effectiveAddress rs offset) = false) (rd : Reg) :
    ∃ t, exec (.lw rd rs offset) s = .next t ∧ RegStep s t rd (s.wordAt (s.effectiveAddress rs offset)) := by
  rw [exec_lw, loadWord_eq, if_neg (by simp [h])]
  exact ⟨_, rfl, regStep_setReg_finish s rd _⟩

theorem exec_lb (rd rs : Reg) (offset : BitVec 4) (s : State) :
    ∃ t, exec (.lb rd rs offset) s = .next t ∧
      RegStep s t rd ((s.byte (s.effectiveAddress rs offset)).setWidth 16) :=
  ⟨_, rfl, regStep_setReg_finish s rd _⟩

theorem exec_sw_of_even {s : State} {rd : Reg} {offset : BitVec 4}
    (h : isOdd (s.effectiveAddress rd offset) = false) (rs : Reg) :
    ∃ t, exec (.sw rd rs offset) s = .next t ∧ SameRegs s t ∧ t.status = s.status ∧ t.pc = s.pc + 2 ∧
      t.mem = writeWord config s.mem (s.effectiveAddress rd offset) (s.reg rs) := by
  rw [exec_sw, storeWord_eq, if_neg (by simp [h])]
  exact ⟨_, rfl, fun _ => rfl, rfl, nextPc_eq s, rfl⟩

theorem exec_sb (rd rs : Reg) (offset : BitVec 4) (s : State) :
    ∃ t, exec (.sb rd rs offset) s = .next t ∧ SameRegs s t ∧ t.status = s.status ∧ t.pc = s.pc + 2 ∧
      t.mem = writeByte config s.mem (s.effectiveAddress rd offset) ((s.reg rs).extractLsb' 0 8) :=
  ⟨_, rfl, fun _ => rfl, rfl, nextPc_eq s, rfl⟩

/-- What a written register other than register 0 holds. -/
theorem WritesReg.reg_eq {s t : State} {rd : Reg} {v : Word} (h : WritesReg s t rd v) (hrd : rd ≠ .r0) :
    t.reg rd = v := by
  obtain ⟨hv, -⟩ := h
  rw [hv, if_neg hrd]

theorem RegStep.reg_eq {s t : State} {rd : Reg} {v : Word} (h : RegStep s t rd v) (hrd : rd ≠ .r0) :
    t.reg rd = v := by
  obtain ⟨hwrites, -⟩ := h
  exact hwrites.reg_eq hrd

/-- The bytes of a state whose memory is another's after a word store. -/
theorem byte_of_writeWord {m : Memory} {t : State} {a v : Word} (h : t.mem = writeWord config m a v)
    (b : Word) : t.byte b =
      if b = a + 1 then v.extractLsb' 8 8 else if b = a then v.extractLsb' 0 8 else readByte config m b := by
  rw [byte_eq_readByte, h, readByte_writeWord]

theorem byte_of_writeByte {m : Memory} {t : State} {a : Word} {v : Byte} (h : t.mem = writeByte config m a v)
    (b : Word) : t.byte b = if b = a then v else readByte config m b := by
  rw [byte_eq_readByte, h, readByte_writeByte]

/-! ## Jumps and branches: the statements -/

/-- Settles O24. -/
theorem jumpGoesToTarget : Obligations.JumpGoesToTarget :=
  fun target s => ⟨decode_word_j target, exec_j target s⟩

/-- Settles O25. -/
theorem jumpAndLinkWritesReturnAddress : Obligations.JumpAndLinkWritesReturnAddress := by
  intro target s
  obtain ⟨t, ht, hlink, hbytes, -, hstatus, hpc⟩ := exec_jal target s
  exact ⟨decode_word_jal target, t, ht, hlink, hbytes, hstatus, hpc⟩

/-- Settles O26. -/
theorem jumpRegisterGoesToRegister : Obligations.JumpRegisterGoesToRegister :=
  fun rd s => ⟨decode_rWord_jr rd, exec_jr rd s⟩

/-- Settles O27. -/
theorem jumpAndLinkRegisterReadsBeforeLink : Obligations.JumpAndLinkRegisterReadsBeforeLink := by
  intro rd rs s
  obtain ⟨t, ht, hlink, hbytes, -, hstatus, hpc⟩ := exec_jalr rd rs s
  exact ⟨decode_rWord_jalr rd rs, t, ht, hlink, hbytes, hstatus, hpc⟩

/-- Settles O28. -/
theorem branchesCompareWholeRegisters : Obligations.BranchesCompareWholeRegisters := by
  intro rd rs offset s
  refine ⟨fun hrd hrs => ⟨decode_oWord (op := 0xB) (func := 0) hrd hrs rfl rfl,
    decode_oWord (op := 0xB) (func := 1) hrd hrs rfl rfl⟩, ?_, ?_⟩ <;> rw [← branchTarget_eq_trunc16]
  · exact exec_beq rd rs offset s
  · exact exec_bne rd rs offset s

/-- JR through a register that holds the address after a call goes there. -/
theorem exec_jr_of_reg_eq {s u : State} {rd : Reg} (h : u.reg rd = s.nextPc) :
    ∃ v, exec (.jr rd) u = .next v ∧ v.pc = s.pc + 2 := by
  obtain ⟨v, hv, -, -, -, hpc⟩ := exec_jr rd u
  exact ⟨v, hv, by rw [hpc, h, nextPc_eq]⟩

/-- Settles O29: both calls leave the next address in `ra`, to which JR goes. -/
theorem callThenReturn : Obligations.CallThenReturn := by
  intro s target f u
  obtain ⟨t, ht, hlink, -, -, -, hpc⟩ := exec_jal target s
  obtain ⟨t', ht', hlink', -, -, -, hpc'⟩ := exec_jalr f .ra s
  exact ⟨⟨t, ht, hpc, fun hu => exec_jr_of_reg_eq (hu.trans (hlink.reg_eq (by decide)))⟩,
    t', ht', hpc', fun hu => exec_jr_of_reg_eq (hu.trans (hlink'.reg_eq (by decide)))⟩

/-- A running machine that has come to an odd address faults there. -/
theorem step_of_arrival {t : State} {a : Word} (hrun : t.status = .run) (hpc : t.pc = a)
    (hodd : isOdd a = true) : step t = .fault (.misalignedFetch a) := by
  subst hpc
  exact step_of_odd_pc hrun hodd

/-- Settles O30: each jump completes with `pc` at the odd address, where the next fetch faults. -/
theorem oddJumpCompletesThenFaults : Obligations.OddJumpCompletesThenFaults := by
  intro s target rd rs hrun
  refine ⟨fun hodd => ⟨?_, ?_⟩, fun hodd => ⟨?_, ?_⟩⟩
  · obtain ⟨t, ht, -, -, hstatus, hpc⟩ := exec_j target s
    exact ⟨t, ht, step_of_arrival (hstatus.trans hrun) hpc hodd⟩
  · obtain ⟨t, ht, hlink, -, -, hstatus, hpc⟩ := exec_jal target s
    exact ⟨t, ht, (hlink.reg_eq (by decide)).trans (nextPc_eq s),
      step_of_arrival (hstatus.trans hrun) hpc hodd⟩
  · obtain ⟨t, ht, -, -, hstatus, hpc⟩ := exec_jr rd s
    exact ⟨t, ht, step_of_arrival (hstatus.trans hrun) hpc hodd⟩
  · obtain ⟨t, ht, hlink, -, -, hstatus, hpc⟩ := exec_jalr rd rs s
    exact ⟨t, ht, fun hrs => (hlink.reg_eq hrs).trans (nextPc_eq s),
      step_of_arrival (hstatus.trans hrun) hpc hodd⟩

/-! ## Loads and stores: the statements -/

/-- Settles O31. -/
theorem loadWordReadsTwoBytes : Obligations.LoadWordReadsTwoBytes :=
  fun rd _ _ _ => ⟨fun hrd hrs => decode_oWord (op := 0xC) (func := 0) hrd hrs rfl rfl,
    fun heven => exec_lw_of_even heven rd⟩

/-- Settles O32. -/
theorem loadByteZeroExtends : Obligations.LoadByteZeroExtends :=
  fun rd rs offset s => ⟨fun hrd hrs => decode_oWord (op := 0xC) (func := 1) hrd hrs rfl rfl,
    exec_lb rd rs offset s⟩

/-- Settles O33: the two bytes of the word store, at addresses that differ. -/
theorem storeWordWritesTwoBytes : Obligations.StoreWordWritesTwoBytes := by
  intro rd rs offset s
  refine ⟨fun hrd hrs => decode_oWord (op := 0xC) (func := 2) hrd hrs rfl rfl, fun heven => ?_⟩
  obtain ⟨t, ht, hregs, hstatus, hpc, hmem⟩ := exec_sw_of_even heven rs
  refine ⟨t, ht, hregs, hstatus, hpc, ?_⟩
  rintro a rfl
  have hbyte := byte_of_writeWord hmem
  refine ⟨?_, ?_, fun b hb hb1 => ?_⟩
  · rw [hbyte, if_neg (add_one_ne _).symm, if_pos rfl]
  · rw [hbyte, if_pos rfl]
  · rw [hbyte, if_neg hb1, if_neg hb, byte_eq_readByte]

/-- Settles O34. -/
theorem storeByteWritesOneByte : Obligations.StoreByteWritesOneByte := by
  intro rd rs offset s
  refine ⟨fun hrd hrs => decode_oWord (op := 0xC) (func := 3) hrd hrs rfl rfl, ?_⟩
  obtain ⟨t, ht, hregs, hstatus, hpc, hmem⟩ := exec_sb rd rs offset s
  refine ⟨t, ht, hregs, hstatus, hpc, ?_⟩
  rintro a rfl
  have hbyte := byte_of_writeByte hmem
  refine ⟨?_, fun b hb => ?_⟩
  · rw [hbyte, if_pos rfl]
  · rw [hbyte, if_neg hb, byte_eq_readByte]

/-- Settles O35: an offset counts words, so the address has the parity of its base. -/
theorem oddBaseFaultsWordAccess : Obligations.OddBaseFaultsWordAccess := by
  intro rd rs offset s
  have hparity := isOdd_effectiveAddress s rs offset
  refine ⟨effectiveAddress_eq_trunc16 s rs offset, hparity, fun hodd => ?_⟩
  rw [← hparity] at hodd
  exact ⟨exec_lw_of_odd hodd rd, exec_sw_of_odd hodd rd⟩

/-- LB through a base with no offset. -/
theorem exec_lb_zero {rd rs : Reg} {u : State} {a : Word} (hrd : rd ≠ .r0) (hbase : u.reg rs = a) :
    ∃ v, exec (.lb rd rs 0) u = .next v ∧ v.reg rd = (u.byte a).setWidth 16 := by
  obtain ⟨v, hv, hstep⟩ := exec_lb rd rs 0 u
  rw [effectiveAddress_zero, hbase] at hstep
  exact ⟨v, hv, hstep.reg_eq hrd⟩

/-- The memory after SB through a base with no offset. -/
theorem mem_of_exec_sb_zero {base data : Reg} {s t : State} {a : Word} (hbase : s.reg base = a)
    (h : exec (.sb base data 0) s = .next t) :
    t.mem = writeByte config s.mem a ((s.reg data).extractLsb' 0 8) := by
  have hmem := (completes_of_exec h).mem
  rwa [memoryAfter, effectiveAddress_zero, hbase] at hmem

/-- Settles O36: a word store is two byte stores, low byte first. -/
theorem mixedWidthAccess : Obligations.MixedWidthAccess := by
  refine ⟨fun rd rs base data offset s t u heven h hmem hrd => ?_,
    fun rd rs b0 d0 b1 d1 s t u v w a heven hb0 h0 hu hb1 h1 hw hrs hrd => ?_⟩
  · have hbyte := byte_of_writeWord (hmem.trans (completes_of_exec h).mem)
    refine ⟨fun hbase => ?_, fun hbase => ?_⟩
    · have hload := exec_lb_zero hrd hbase
      rwa [hbyte, if_neg (add_one_ne _).symm, if_pos rfl] at hload
    · have hload := exec_lb_zero hrd hbase
      rwa [hbyte, if_pos rfl] at hload
  · have hbyte := byte_of_writeByte (hw.trans (mem_of_exec_sb_zero hb1 h1))
    have hlow := byte_of_writeByte (hu.trans (mem_of_exec_sb_zero hb0 h0))
    rw [← hrs, ← effectiveAddress_zero] at heven
    obtain ⟨x, hx, hstep⟩ := exec_lw_of_even heven rd
    refine ⟨x, hx, ?_⟩
    rw [hstep.reg_eq hrd, effectiveAddress_zero, hrs, State.wordAt, hbyte, if_pos rfl, hbyte,
      if_neg (add_one_ne a).symm, ← byte_eq_readByte, hlow, if_pos rfl]

theorem fetchedWord_eq (s : State) : s.fetchedWord = readWord config s.mem s.pc :=
  (readWord_eq s.mem s.pc).symm

/-- Settles O37: the fetch reads the word that SW wrote. -/
theorem storedWordIsFetched : Obligations.StoredWordIsFetched := by
  intro base data offset s t u i heven h hi hmem hrun hpc
  have hword : u.fetchedWord = s.reg data := by
    rw [fetchedWord_eq, hpc, hmem, (completes_of_exec h).mem]
    exact readWord_writeWord_same ..
  exact step_of_decode hrun (hpc ▸ heven) (hword ▸ hi)

/-! ## HI/LO moves: the statements -/

/-- A register move at the machine's parameters as what it leaves, without its memory. -/
theorem moveReg_regStep (dst src : Reg) (s : State) :
    ∃ t, moveReg config dst src s = .next t ∧ RegStep s t dst (s.reg src) := by
  obtain ⟨t, ht, hstep, -⟩ := moveReg_spec dst src s
  exact ⟨t, ht, hstep⟩

/-- Settles O38. -/
theorem hiLoMovesCopyOneRegister : Obligations.HiLoMovesCopyOneRegister :=
  fun rd s => ⟨⟨decode_rWord_mfhi rd, moveReg_regStep rd .hi s⟩,
    ⟨decode_rWord_mflo rd, moveReg_regStep rd .lo s⟩, ⟨decode_rWord_mthi rd, moveReg_regStep .hi rd s⟩,
    ⟨decode_rWord_mtlo rd, moveReg_regStep .lo rd s⟩⟩

theorem Regs.set_set (x : Regs) (r : Reg) (v v' : Word) : (x.set r v).set r v' = x.set r v' := by
  cases r <;> rfl

/-- The printed expansion clears the destination and adds the source to it. -/
theorem execTwo_clear_add (dst src : Reg) (s : State) :
    ∃ u, execTwo (.and dst .r0) (.add dst src) s = .next u ∧
      u.regs = s.regs.set dst (if src = dst then 0 else s.reg src) := by
  obtain ⟨t, ht, hregs⟩ := aluInto_regs .and dst (s.reg .r0) s
  obtain ⟨u, hu, hregs'⟩ := aluInto_regs .add dst (t.reg src) t
  have hfirst : exec (.and dst .r0) s = .next t := ht
  have hclear : t.regs = s.regs.set dst 0 := by
    rw [hregs]
    exact congrArg _ BitVec.and_zero
  have hdst : t.reg dst = 0 := by rw [reg_of_regs_eq_set hclear, ite_self]
  have hsrc : t.reg src = if src = dst then 0 else s.reg src := by
    rw [State.reg, hclear, Regs.get_set]
    split
    · next h => simp [h]
    · rfl
  refine ⟨u, ?_, ?_⟩
  · rw [execTwo, hfirst]
    exact hu
  · rw [hregs', hclear, Regs.set_set, AluFn.result, sumOf_eq, hdst, hsrc, zero_add]

/-- The move and its expansion, by whether the source is the destination itself (R212). -/
theorem moveReg_expansion (dst src : Reg) (s : State) :
    ∃ t u, moveReg config dst src s = .next t ∧ execTwo (.and dst .r0) (.add dst src) s = .next u ∧
      (src ≠ dst → u.regs = t.regs) ∧ (src = dst → SameRegs s t ∧ u.reg dst = 0) := by
  obtain ⟨u, hu, hregs⟩ := execTwo_clear_add dst src s
  refine ⟨_, u, rfl, hu, fun hne => ?_, fun heq => ⟨fun r => ?_, ?_⟩⟩
  · rw [hregs, if_neg hne]
    rfl
  · subst heq
    by_cases hr : r = src
    · subst hr
      rw [reg_finish, reg_setReg_same]
      split
      · next h => rw [h, reg_r0]
      · rfl
    · rw [reg_finish, reg_setReg_ne s _ hr]
  · rw [reg_of_regs_eq_set hregs, if_pos heq, ite_self]

/-- Settles O39. -/
theorem expansionAgreesUnlessSameRegister : Obligations.ExpansionAgreesUnlessSameRegister := by
  refine fun rd s => ⟨?_, ?_⟩
  · rintro i (rfl | rfl)
    · obtain ⟨t, u, ht, hu, hne, heq⟩ := moveReg_expansion rd .hi s
      exact ⟨_, _, t, u, rfl, ht, hu, fun h => hne h.symm, fun h => h ▸ heq h.symm⟩
    · obtain ⟨t, u, ht, hu, hne, heq⟩ := moveReg_expansion .hi rd s
      exact ⟨_, _, t, u, rfl, ht, hu, hne, heq⟩
  · rintro i (rfl | rfl)
    · obtain ⟨t, u, ht, hu, hne, heq⟩ := moveReg_expansion rd .lo s
      exact ⟨_, _, t, u, rfl, ht, hu, fun h => hne h.symm, fun h => h ▸ heq h.symm⟩
    · obtain ⟨t, u, ht, hu, hne, heq⟩ := moveReg_expansion .lo rd s
      exact ⟨_, _, t, u, rfl, ht, hu, hne, heq⟩

/-- Settles O45: nothing is listed in the memory after reset. -/
theorem resetState : Obligations.ResetState :=
  ⟨rfl, rfl, rfl, wf_nil, fun _ => rfl⟩

end Sys2Proof.Machine

/-! PROOF. What each of the twelve parameters of 00_scope R8 changes, whatever the others are
(93_implementation_defined part 1): one lemma per clause, from what the shared operations do under any
parameters. -/

namespace Sys2Proof

/-! ## The fields of a masked word -/

theorem extractLsb'_and_of_ones {m : Word} {i n : Nat} (h : m.extractLsb' i n = BitVec.allOnes n) (w : Word) :
    (w &&& m).extractLsb' i n = w.extractLsb' i n := by
  rw [BitVec.extractLsb'_and, h, BitVec.and_allOnes]

theorem extractLsb'_and_of_zeros {m : Word} {i n : Nat} (h : m.extractLsb' i n = 0#n) (w : Word) :
    (w &&& m).extractLsb' i n = 0#n := by
  rw [BitVec.extractLsb'_and, h, BitVec.and_zero]

/-- Ignoring `sbz` is reading the word with it cleared. -/
theorem decodeTwoRegs_ignore (mk : Reg → Reg → Instr) (w : Word) :
    decodeTwoRegs .ignore mk w = decodeTwoRegs .fault mk (w &&& 0xFFFC) := by
  have hsbz : sbzField (w &&& 0xFFFC) = 0 := extractLsb'_and_of_zeros (by decide) w
  have hrd : rdField (w &&& 0xFFFC) = rdField w := extractLsb'_and_of_ones (by decide) w
  have hrs : rsField (w &&& 0xFFFC) = rsField w := extractLsb'_and_of_ones (by decide) w
  unfold decodeTwoRegs
  rw [hrd, hrs, if_neg (by simp), if_neg (not_and_of_not_left _ (not_not.mpr hsbz))]

/-- Ignoring the unused bits of a one-register word is reading the word with them cleared. -/
theorem decodeOneReg_ignore (mk : Reg → Instr) (w : Word) :
    decodeOneReg .ignore mk w = decodeOneReg .fault mk (w &&& 0xFFC0) := by
  have himm : immField (w &&& 0xFFC0) = 0 := extractLsb'_and_of_zeros (by decide) w
  have hrd : rdField (w &&& 0xFFC0) = rdField w := extractLsb'_and_of_ones (by decide) w
  unfold decodeOneReg
  rw [hrd, if_neg (by simp), if_neg (not_and_of_not_left _ (not_not.mpr himm))]

theorem decodeWith_ignore_twoRegs {w : Word} (h : IsTwoRegs (opField w) (funcField w)) :
    decodeWith .ignore w = decode (w &&& 0xFFFC) := by
  cases decodesAs (opField w) (funcField w) with
  | twoRegs mk decodes encodes words =>
    rw [decode, decodes .ignore w rfl rfl,
      decodes .fault _ (extractLsb'_and_of_ones (by decide) w) (extractLsb'_and_of_ones (by decide) w),
      decodeTwoRegs_ignore]
  | oneReg mk decodes encodes words => omega
  | immediate mk decodes encodes words => omega
  | unrestricted mk decodes encodes words => omega
  | unassigned e decodes words => omega

theorem decodeWith_ignore_oneReg {w : Word} (h : IsOneReg (opField w) (funcField w)) :
    decodeWith .ignore w = decode (w &&& 0xFFC0) := by
  cases decodesAs (opField w) (funcField w) with
  | oneReg mk decodes encodes words =>
    rw [decode, decodes .ignore w rfl rfl,
      decodes .fault _ (extractLsb'_and_of_ones (by decide) w) (extractLsb'_and_of_ones (by decide) w),
      decodeOneReg_ignore]
  | twoRegs mk decodes encodes words => omega
  | immediate mk decodes encodes words => omega
  | unrestricted mk decodes encodes words => omega
  | unassigned e decodes words => omega

theorem decodeWith_ignore_other {w : Word} (htwo : ¬ IsTwoRegs (opField w) (funcField w))
    (hone : ¬ IsOneReg (opField w) (funcField w)) : decodeWith .ignore w = decode w := by
  rw [decode]
  cases decodesAs (opField w) (funcField w) with
  | twoRegs mk decodes encodes words => exact absurd words htwo
  | oneReg mk decodes encodes words => exact absurd words hone
  | immediate mk decodes encodes words | unrestricted mk decodes encodes words =>
    rw [decodes .ignore w rfl rfl, decodes .fault w rfl rfl]
  | unassigned e decodes words => rw [decodes .ignore w rfl rfl, decodes .fault w rfl rfl]

end Sys2Proof

namespace Sys2Proof.Machine

/-! ## Memory under any parameters -/

theorem readByte_of_cellOf_eq {cfg : Config} {a b : Word} (h : cellOf cfg a = cellOf cfg b) (m : Memory) :
    readByte cfg m a = readByte cfg m b := by
  simp only [readByte, initialByte, h]

/-- The cells after a word store under any parameters. -/
theorem byteAt_writeWord (cfg : Config) (m : Memory) (a b v : Word) :
    Memory.byteAt (writeWord cfg m a v) (cellOf cfg b) =
      if cellOf cfg b = cellOf cfg (a + 1) then some (upperByte (orderAt cfg a) v)
      else if cellOf cfg b = cellOf cfg a then some (lowerByte (orderAt cfg a) v)
      else Memory.byteAt m (cellOf cfg b) := by
  rw [writeWord, writeByte, writeByte, byteAt_put, byteAt_put, secondByte_eq]

/-- With more than one cell, the lower byte of a stored word stands at its address. -/
theorem byteAt_writeWord_lower {cfg : Config} (h : 0 < cfg.addrBits) (m : Memory) (a v : Word) :
    Memory.byteAt (writeWord cfg m a v) (cellOf cfg a) = some (lowerByte (orderAt cfg a) v) := by
  rw [byteAt_writeWord, if_neg (cellOf_add_one_ne h a).symm, if_pos rfl]

theorem byteAt_writeWord_upper (cfg : Config) (m : Memory) (a v : Word) :
    Memory.byteAt (writeWord cfg m a v) (cellOf cfg (a + 1)) = some (upperByte (orderAt cfg a) v) := by
  rw [byteAt_writeWord, if_pos rfl]

theorem readByte_of_byteAt {cfg : Config} {m : Memory} {a : Word} {v : Byte}
    (h : Memory.byteAt m (cellOf cfg a) = some v) : readByte cfg m a = v := by
  rw [readByte, h, Option.getD_some]

theorem readInstructionByte_of_byteAt {cfg : Config} {m : Memory} {a : Word} {v : Byte}
    (h : Memory.byteAt m (cellOf cfg a) = some v) : readInstructionByte cfg m a = v := by
  rw [readInstructionByte, h, Option.getD_some]

theorem joinBytes_eq_orderedWord (cfg : Config) (lower upper : Byte) :
    joinBytes cfg.byteOrder lower upper = orderedWord cfg lower upper := by
  rw [orderedWord]
  cases cfg.byteOrder <;> rfl

theorem orderAt_of_even {a : Word} (h : isOdd a = false) (cfg : Config) : orderAt cfg a = cfg.byteOrder := by
  simp [orderAt, h]

theorem orderAt_of_odd {a : Word} (h : isOdd a = true) (cfg : Config) : orderAt cfg a = .little := by
  simp [orderAt, h]

theorem wordOf_of_even {a : Word} (h : isOdd a = false) (cfg : Config) (read : Word → Byte) :
    wordOf cfg read a = orderedWord cfg (read a) (read (a + 1)) := by
  rw [wordOf, orderAt_of_even h, joinBytes_eq_orderedWord, secondByte_eq]

theorem wordOf_of_odd {a : Word} (h : isOdd a = true) (cfg : Config) (read : Word → Byte) :
    wordOf cfg read a = read (a + 1) ++ read a := by
  rw [wordOf, orderAt_of_odd h, secondByte_eq, joinBytes]

/-- Where the bytes of a word stand in the order of its address, the word is read. -/
theorem wordOf_eq_of_bytes {cfg : Config} {read : Word → Byte} {a v : Word}
    (hlower : read a = lowerByte (orderAt cfg a) v) (hupper : read (a + 1) = upperByte (orderAt cfg a) v) :
    wordOf cfg read a = v := by
  rw [wordOf, secondByte_eq, hlower, hupper, joinBytes_lower_upper]

/-! ## An odd address with bit 0 cleared (U10, U11) -/

theorem clearBit0_toNat (a : Word) : (clearBit0 a).toNat = a.toNat / 2 * 2 := by
  have hshift : clearBit0 a = a >>> 1 <<< 1 := by
    refine BitVec.eq_of_getLsbD_eq fun k hk => ?_
    interval_cases k <;> simp [clearBit0]
  rw [hshift, BitVec.toNat_shiftLeft, BitVec.toNat_ushiftRight, Nat.shiftLeft_eq, Nat.shiftRight_eq_div_pow]
  omega

theorem isOdd_clearBit0 (a : Word) : isOdd (clearBit0 a) = false := by
  have h : ¬ isOdd (clearBit0 a) = true := by
    rw [isOdd_iff, clearBit0_toNat]
    omega
  simpa using h

theorem clearBit0_eq_sub_one {a : Word} (h : isOdd a = true) : clearBit0 a = a - 1 := by
  have hodd := (isOdd_iff a).mp h
  refine BitVec.eq_of_toNat_eq ?_
  have hone : (1 : Word).toNat = 1 := rfl
  rw [clearBit0_toNat, BitVec.toNat_sub, hone]
  omega

/-! ## The alignment check and the fetch under any parameters -/

theorem wordAddress_of_even {ea : Word} (h : isOdd ea = false) (cfg : Config) (pc : Word) :
    wordAddress cfg pc ea = .ok ea := by
  simp [wordAddress, h]

theorem wordAddress_of_odd {ea : Word} (h : isOdd ea = true) (cfg : Config) (pc : Word) :
    (cfg.misalignedData = .fault → wordAddress cfg pc ea = .error (.misalignedAccess pc ea)) ∧
    (cfg.misalignedData = .split → wordAddress cfg pc ea = .ok ea) ∧
    (cfg.misalignedData = .ignoreBit0 → wordAddress cfg pc ea = .ok (clearBit0 ea)) := by
  refine ⟨fun hm => ?_, fun hm => ?_, fun hm => ?_⟩ <;> simp [wordAddress, h, hm]

/-- The one fault the alignment check can answer. -/
theorem wordAddress_eq_error {cfg : Config} {pc ea : Word} {f : Fault}
    (h : wordAddress cfg pc ea = .error f) : f = .misalignedAccess pc ea := by
  unfold wordAddress at h
  split at h
  · split at h <;> cases h
    rfl
  · cases h

/-- LW faults with its address or writes its destination and goes on. -/
theorem loadWord_cases (cfg : Config) (rd rs : Reg) (offset : BitVec 4) (s : State) :
    (∃ ea, loadWord cfg rd rs offset s = .fault (.misalignedAccess s.pc ea)) ∨
      ∃ v, loadWord cfg rd rs offset s = .next ((s.setReg rd v).finish cfg s.nextPc) := by
  cases h : wordAddress cfg s.pc (s.effectiveAddress rs offset) with
  | error f =>
    obtain rfl := wordAddress_eq_error h
    exact .inl ⟨_, loadWord_of_error h rd⟩
  | ok a => exact .inr ⟨_, loadWord_of_ok h rd⟩

/-- SW faults with its address or writes the memory and goes on. -/
theorem storeWord_cases (cfg : Config) (rd rs : Reg) (offset : BitVec 4) (s : State) :
    (∃ ea, storeWord cfg rd rs offset s = .fault (.misalignedAccess s.pc ea)) ∨
      ∃ m, storeWord cfg rd rs offset s = .next ((s.setMem m).finish cfg s.nextPc) := by
  cases h : wordAddress cfg s.pc (s.effectiveAddress rd offset) with
  | error f =>
    obtain rfl := wordAddress_eq_error h
    exact .inl ⟨_, storeWord_of_error h rs⟩
  | ok a => exact .inr ⟨_, storeWord_of_ok h rs⟩

theorem fetchWord_eq_wordOf (cfg : Config) (s : State) (a : Word) :
    fetchWord cfg s a = wordOf cfg (fetchByte cfg s) a := by
  unfold fetchWord fetchByte
  cases cfg.memOrg <;> rfl

theorem fetch_of_even {s : State} (h : isOdd s.pc = false) (cfg : Config) :
    fetch cfg s = .ok (wordOf cfg (fetchByte cfg s) s.pc) := by
  simp [fetch, h, fetchWord_eq_wordOf]

theorem fetch_of_odd {s : State} (h : isOdd s.pc = true) (cfg : Config) :
    (cfg.misalignedFetch = .fault → fetch cfg s = .error (.misalignedFetch s.pc)) ∧
    (cfg.misalignedFetch = .ignoreBit0 →
      fetch cfg s = .ok (wordOf cfg (fetchByte cfg s) (clearBit0 s.pc))) := by
  refine ⟨fun hm => ?_, fun hm => ?_⟩ <;> simp [fetch, h, hm, fetchWord_eq_wordOf]

theorem stepWith_of_fetch_error {cfg : Config} {s : State} {f : Fault} (hrun : s.status = .run)
    (h : fetch cfg s = .error f) : stepWith cfg s = .fault f := by
  simp only [stepWith, cycle, hrun, h, raise]

theorem stepWith_of_decode {cfg : Config} {s : State} {w : Word} {i : Instr} (hrun : s.status = .run)
    (hw : fetch cfg s = .ok w) (hi : decodeWith cfg.reservedField w = .ok i) :
    stepWith cfg s = execWith cfg i s := by
  simp only [stepWith, cycle, hrun, hw, hi]

theorem stepWith_of_reserved {cfg : Config} {s : State} {w : Word} {e : Reject} (hrun : s.status = .run)
    (hw : fetch cfg s = .ok w) (he : decodeWith cfg.reservedField w = .error e) :
    stepWith cfg s = .fault (.illegalInstruction s.pc w) := by
  simp only [stepWith, cycle, hrun, hw, he, raise]

theorem aluInto_eq_fault {cfg : Config} {f : AluFn} {rd : Reg} {b : Word} {s : State} {e : Fault}
    (h : aluInto cfg f rd b s = .fault e) : e = .shiftAmountRange s.pc b := by
  unfold aluInto at h
  split at h <;> cases h
  rfl

/-- The faults of an instruction itself under any parameters: an amount or an address. -/
theorem execWith_eq_fault {cfg : Config} {i : Instr} {s : State} {f : Fault}
    (h : execWith cfg i s = .fault f) :
    (∃ amount, f = .shiftAmountRange s.pc amount) ∨ ∃ ea, f = .misalignedAccess s.pc ea := by
  cases i using Instr.byForm with
  | register g rd rs =>
    rw [execWith_registerForm] at h
    exact .inl ⟨_, aluInto_eq_fault h⟩
  | immediate g rd imm =>
    rw [execWith_immediateForm] at h
    exact .inl ⟨_, aluInto_eq_fault h⟩
  | lw rd rs offset =>
    rw [execWith_lw] at h
    obtain ⟨ea, hfault⟩ | ⟨v, hnext⟩ := loadWord_cases cfg rd rs offset s
    · exact .inr ⟨ea, by simpa [hfault, eq_comm] using h⟩
    · simp [hnext] at h
  | sw rd rs offset =>
    rw [execWith_sw] at h
    obtain ⟨ea, hfault⟩ | ⟨m, hnext⟩ := storeWord_cases cfg rd rs offset s
    · exact .inr ⟨ea, by simpa [hfault, eq_comm] using h⟩
    · simp [hnext] at h
  | j target | jal target => cases h
  | jr rd | mfhi rd | mflo rd | mthi rd | mtlo rd => cases h
  | jalr rd rs => cases h
  | beq rd rs offset | bne rd rs offset | lb rd rs offset | sb rd rs offset => cases h

/-! ## Loads and stores under any parameters -/

theorem loadGives_of_exec {cfg : Config} {i : Instr} {s : State} {rd : Reg} {v : Word}
    (h : execWith cfg i s = .next ((s.setReg rd v).finish cfg s.nextPc)) : LoadGives cfg i s rd v :=
  ⟨_, h, writesReg_setReg s rd v, rfl, rfl, nextPc_eq s⟩

/-- LW that accesses the word at `a`. -/
theorem loadGives_lw {cfg : Config} {s : State} {rs : Reg} {offset : BitVec 4} {a : Word}
    (h : wordAddress cfg s.pc (s.effectiveAddress rs offset) = .ok a) (rd : Reg) :
    LoadGives cfg (.lw rd rs offset) s rd (wordOf cfg (readByte cfg s.mem) a) :=
  loadGives_of_exec (loadWord_of_ok h rd)

/-- SW that accesses the word at `a`, whose bytes stand in the order of `BYTE_ORDER`. -/
theorem storeGives_sw {cfg : Config} {s : State} {rd : Reg} {offset : BitVec 4} {a : Word}
    (h : wordAddress cfg s.pc (s.effectiveAddress rd offset) = .ok a) (hbits : 0 < cfg.addrBits)
    (horder : orderAt cfg a = cfg.byteOrder) (rs : Reg) :
    StoreGives cfg (.sw rd rs offset) s a (s.reg rs) := by
  refine ⟨_, storeWord_of_ok h rs, fun _ => rfl, rfl, nextPc_eq s, ?_, fun b hb hb1 => ?_⟩
  · rw [finish_mem, setMem_mem, readByte_of_byteAt (byteAt_writeWord_lower hbits ..),
      readByte_of_byteAt (byteAt_writeWord_upper ..), horder, ← joinBytes_eq_orderedWord,
      joinBytes_lower_upper]
  · rw [finish_mem, setMem_mem, readByte, byteAt_writeWord, if_neg hb1, if_neg hb, readByte]

/-- A word store at an odd address is the same under either byte order. -/
theorem writeWord_of_odd {a : Word} (h : isOdd a = true) (cfg : Config) (m : Memory) (v : Word) :
    writeWord cfg m a v = writeWord { cfg with byteOrder := .little } m a v := by
  unfold writeWord
  rw [orderAt_of_odd h, orderAt_of_odd h]
  rfl

/-! ## The clauses -/

theorem addrBitsClause (cfg : Config) : AddrBitsClause cfg := by
  intro m a b v
  refine ⟨fun h => ⟨readByte_of_cellOf_eq h m, ?_⟩, fun h => ?_⟩
  · rw [readByte_writeByte_cell]
    exact if_pos (Eq.symm h)
  · rw [readByte_writeByte_cell]
    exact if_neg (Ne.symm h)

theorem byteOrderClause (cfg : Config) : ByteOrderClause cfg := by
  refine ⟨fun lower upper h => by simp [orderedWord, h], fun lower upper h => by simp [orderedWord, h],
    fun rd rs offset s => ⟨fun heven => ?_, ?_, ?_⟩⟩
  · rw [fetch_of_even heven, wordOf_of_even heven]
  · rintro ea rfl
    refine ⟨loadGives_of_exec rfl, fun heven => ?_⟩
    have h := loadGives_lw (wordAddress_of_even heven cfg s.pc) rd
    rwa [wordOf_of_even heven] at h
  · rintro ea rfl
    refine ⟨⟨_, rfl, fun _ => rfl, ?_, fun b hb => ?_⟩, fun heven hbits => ?_⟩
    · rw [finish_mem, setMem_mem, readByte_writeByte_cell, if_pos rfl]
    · rw [finish_mem, setMem_mem, readByte_writeByte_cell, if_neg hb]
    · exact storeGives_sw (wordAddress_of_even heven cfg s.pc) hbits (orderAt_of_even heven cfg) rs

theorem execWith_memOrg (cfg : Config) (memOrg : MemOrg) (i : Instr) (s : State) :
    execWith { cfg with memOrg := memOrg } i s = execWith cfg i s := by
  cases i <;> rfl

/-- A word placed at an even `pc` is the word fetched there. -/
theorem fetch_loadWith {cfg : Config} {s : State} (hbits : 0 < cfg.addrBits) (heven : isOdd s.pc = false)
    (w : Word) : fetch (loadWith cfg [w] s).1 (loadWith cfg [w] s).2 = .ok w := by
  cases horg : cfg.memOrg with
  | unified =>
    have hload : loadWith cfg [w] s = (cfg, s.setMem (writeWord cfg s.mem s.pc w)) := by
      simp [loadWith, horg, placeWords]
    rw [hload]
    refine (fetch_of_even (s := s.setMem (writeWord cfg s.mem s.pc w)) heven cfg).trans
      (congrArg _ (wordOf_eq_of_bytes ?_ ?_))
    · simp only [fetchByte, horg]
      exact readByte_of_byteAt (byteAt_writeWord_lower hbits ..)
    · simp only [fetchByte, horg]
      exact readByte_of_byteAt (byteAt_writeWord_upper ..)
  | harvard instructions =>
    have hload : loadWith cfg [w] s =
        ({ cfg with memOrg := .harvard (writeWord cfg instructions s.pc w) }, s) := by
      simp [loadWith, horg, placeWords]
    rw [hload, fetch_of_even heven]
    exact congrArg _ (wordOf_eq_of_bytes (readInstructionByte_of_byteAt (byteAt_writeWord_lower hbits ..))
      (readInstructionByte_of_byteAt (byteAt_writeWord_upper ..)))

theorem memOrgClause (cfg : Config) : MemOrgClause cfg := by
  refine ⟨fun h s a => by simp [fetchByte, h], fun instructions h s m program => ⟨?_, ?_⟩,
    execWith_memOrg cfg .unified, fun s w hbits heven => fetch_loadWith hbits heven w⟩
  · simp [fetch, fetchWord, h]
  · simp [loadWith, h]

theorem misalignedDataClause (cfg : Config) : MisalignedDataClause cfg := by
  intro rd rs offset s ea hodd
  have hafter : ea - 1 + 1 = ea := sub_add_cancel ea 1
  have heven : isOdd (ea - 1) = false := clearBit0_eq_sub_one hodd ▸ isOdd_clearBit0 ea
  obtain ⟨hfault, hsplit, hignore⟩ := wordAddress_of_odd hodd cfg s.pc
  rw [clearBit0_eq_sub_one hodd] at hignore
  refine ⟨?_, ?_⟩
  · rintro rfl
    refine ⟨fun h => loadWord_of_error (hfault h) rd, fun h => ?_, fun h => ?_⟩
    · have hload := loadGives_lw (hsplit h) rd
      rwa [wordOf_of_odd hodd] at hload
    · have hload := loadGives_lw (hignore h) rd
      rwa [wordOf_of_even heven, hafter] at hload
  · rintro rfl
    refine ⟨fun h => storeWord_of_error (hfault h) rs, fun h hbits => ⟨?_, ?_⟩, fun h hbits => ?_⟩
    · exact storeGives_sw (cfg := { cfg with byteOrder := .little }) (hsplit h) hbits
        (orderAt_of_odd hodd _) rs
    · rw [execWith_sw, execWith_sw, storeWord_of_ok (hsplit h),
        storeWord_of_ok (cfg := { cfg with byteOrder := .little }) (hsplit h), writeWord_of_odd hodd cfg]
      rfl
    · exact storeGives_sw (hignore h) hbits (orderAt_of_even heven cfg) rs

theorem misalignedFetchClause (cfg : Config) : MisalignedFetchClause cfg := by
  intro s hrun hodd
  obtain ⟨hfault, hignore⟩ := fetch_of_odd hodd cfg
  have heven : isOdd (s.pc - 1) = false := clearBit0_eq_sub_one hodd ▸ isOdd_clearBit0 s.pc
  rw [clearBit0_eq_sub_one hodd, wordOf_of_even heven, sub_add_cancel] at hignore
  refine ⟨fun h => stepWith_of_fetch_error hrun (hfault h), fun h w hw => ?_⟩
  have hfetch : fetch cfg s = .ok w := hw ▸ hignore h
  refine ⟨fun i => stepWith_of_decode hrun hfetch, fun e => stepWith_of_reserved hrun hfetch,
    fun p hstep => ?_⟩
  cases hi : decodeWith cfg.reservedField w with
  | error e =>
    rw [stepWith_of_reserved hrun hfetch hi] at hstep
    cases hstep
  | ok i =>
    rw [stepWith_of_decode hrun hfetch hi] at hstep
    obtain ⟨amount, hf⟩ | ⟨ea, hf⟩ := execWith_eq_fault hstep <;> cases hf

/-- A shift or rotate by `b` under `SHIFT_AMOUNT`. -/
theorem amountClause_of_aluInto {cfg : Config} {i : Instr} {s : State} {f : AluFn} {rd : Reg} {b : Word}
    {above : Prop} (hi : ∀ c, execWith c i s = aluInto c f rd b s) (hf : f.isShift = true)
    (habove : above ↔ 15 < b.toNat) : AmountClause cfg i s b above := by
  rw [AmountClause, habove, exec_eq_execWith, hi, hi]
  refine ⟨fun hrefuse hb => aluInto_of_refused ⟨hf, hrefuse, hb⟩ rd s, fun h => ?_⟩
  have haccepted : ¬ (f.isShift = true ∧ cfg.shiftAmount = .refuse ∧ 15 < b.toNat) := by
    rintro ⟨-, hrefuse, hb⟩
    obtain hmask | hle := h
    · rw [hmask] at hrefuse
      cases hrefuse
    · exact hle hb
  exact ⟨_, _, aluInto_of_accepted haccepted rd s, aluInto_eq f rd b s, rfl, rfl, rfl⟩

/-- An immediate amount is above 15 exactly if its sign extension is. -/
theorem lt_signedImm_iff (imm : BitVec 6) : 15 < imm.toNat ↔ 15 < (imm.signExtend 16).toNat := by
  revert imm
  decide

theorem lt_unsignedImm_iff (imm : BitVec 6) : 15 < imm.toNat ↔ 15 < (imm.setWidth 16).toNat := by
  rw [← unsignedImm, toNat_unsignedImm]

theorem shiftAmountClause (cfg : Config) : ShiftAmountClause cfg := fun _ _ imm _ =>
  ⟨amountClause_of_aluInto (f := .sll) (fun _ => rfl) rfl Iff.rfl,
    amountClause_of_aluInto (f := .srl) (fun _ => rfl) rfl Iff.rfl,
    amountClause_of_aluInto (f := .sra) (fun _ => rfl) rfl Iff.rfl,
    amountClause_of_aluInto (f := .rotl) (fun _ => rfl) rfl Iff.rfl,
    amountClause_of_aluInto (f := .sll) (fun _ => rfl) rfl (lt_unsignedImm_iff imm),
    amountClause_of_aluInto (f := .srl) (fun _ => rfl) rfl (lt_unsignedImm_iff imm),
    amountClause_of_aluInto (f := .sra) (fun _ => rfl) rfl (lt_signedImm_iff imm),
    amountClause_of_aluInto (f := .rotl) (fun _ => rfl) rfl (lt_unsignedImm_iff imm)⟩

theorem jalrLinkClause (cfg : Config) : JalrLinkClause cfg :=
  fun _ rs s => ⟨_, rfl, writesReg_setReg s rs _, rfl⟩

theorem endOfRunClause (cfg : Config) : EndOfRunClause cfg := by
  refine fun s => ⟨fun a h => ?_, fun h => endOfRun_jumpToSelf_iff h s⟩
  unfold endOfRun
  cases hs : s.status <;> simp [h]

theorem reservedFieldClause (cfg : Config) : ReservedFieldClause cfg := by
  rintro w op func rfl rfl
  rw [← opField_toNat, ← funcField_toNat]
  refine ⟨fun h => by rw [h, decode], fun h => ?_, fun s hrun hw => ⟨fun i => stepWith_of_decode hrun hw,
    fun e => stepWith_of_reserved hrun hw⟩⟩
  rw [h]
  refine ⟨decodeWith_ignore_twoRegs, fun hone => decodeWith_ignore_oneReg (Or.symm hone), fun hother => ?_⟩
  exact decodeWith_ignore_other (by omega) (by omega)

theorem memInitClause (cfg : Config) : MemInitClause cfg := by
  refine ⟨rfl, fun m a => ⟨fun v hv => ⟨readByte_of_byteAt hv, readInstructionByte_of_byteAt hv⟩,
    fun hnone => ?_⟩⟩
  have hread : readByte cfg m a = initialByte cfg a := by rw [readByte, hnone, Option.getD_none]
  have hinstr : readInstructionByte cfg m a = initialInstructionByte cfg a := by
    rw [readInstructionByte, hnone, Option.getD_none]
  refine ⟨hread, hinstr, fun hzero => ?_⟩
  rw [hread, hinstr]
  simp [initialByte, initialInstructionByte, hzero]

end Sys2Proof.Machine

/-! PROOF. `FLAG_MODEL` (93_implementation_defined G2): the conventional flags in the terms of unsigned and
signed numbers, and the statement of the twelve parameters. -/

namespace Sys2Proof.Machine

/-! ## The sign bit of a word -/

theorem getLsbD_15 (a : Word) : a.getLsbD 15 = decide (32768 ≤ a.toNat) := by
  have := a.isLt
  rw [BitVec.getLsbD, Nat.testBit_eq_decide_div_mod_eq, decide_eq_decide]
  omega

theorem toInt_eq_ite (a : Word) : a.toInt = if a.toNat < 32768 then (a.toNat : Int) else a.toNat - 65536 := by
  rw [BitVec.toInt_eq_toNat_cond]
  split <;> split <;> omega

/-- A signed sum leaves the word exactly if the operands have one sign and the result the other. -/
theorem sum_overflows_iff (a b : Word) :
    (a.getLsbD 15 = b.getLsbD 15 ∧ (a + b).getLsbD 15 ≠ a.getLsbD 15) ↔
      (a.toInt + b.toInt < -32768 ∨ 32767 < a.toInt + b.toInt) := by
  have ha := a.isLt
  have hb := b.isLt
  simp only [getLsbD_15, ne_eq, decide_eq_decide, BitVec.toNat_add, toInt_eq_ite]
  split <;> split <;> omega

/-- A signed difference leaves the word exactly if the operands have different signs and the result not the
first one's. -/
theorem difference_overflows_iff (a b : Word) :
    (a.getLsbD 15 ≠ b.getLsbD 15 ∧ (a - b).getLsbD 15 ≠ a.getLsbD 15) ↔
      (a.toInt - b.toInt < -32768 ∨ 32767 < a.toInt - b.toInt) := by
  have ha := a.isLt
  have hb := b.isLt
  simp only [getLsbD_15, ne_eq, decide_eq_decide, BitVec.toNat_sub, toInt_eq_ite]
  split <;> split <;> omega

/-! ## The carry and the overflow of G2 in numbers -/

theorem getLsbD_iff_div_mod (a : Word) (k : Nat) : a.getLsbD k = true ↔ a.toNat / 2 ^ k % 2 = 1 := by
  rw [BitVec.getLsbD, Nat.testBit_eq_decide_div_mod_eq, decide_eq_true_iff]

/-- The last bit shifted out, if the amount is not 0. -/
theorem shifted_out_iff (a b : Word) (k : Nat) : (shiftAmount b != 0 && a.getLsbD k) = true ↔
    b.toNat % 16 ≠ 0 ∧ a.toNat / 2 ^ k % 2 = 1 := by
  rw [Bool.and_eq_true_iff, bne_iff_ne, shiftAmount_eq, getLsbD_iff_div_mod]

theorem carry_iff (f : AluFn) (a b : Word) : f.carry a b = true ↔ conventionalCarry f a.toNat b.toNat := by
  have hadd : decide (uval a + uval b ≥ 2 ^ 16) = true ↔ 2 ^ 16 ≤ a.toNat + b.toNat := by
    rw [decide_eq_true_iff, uval, uval]
    norm_cast
  have hsub : decide (uval a < uval b) = true ↔ a.toNat < b.toNat := by
    rw [decide_eq_true_iff, uval, uval, Nat.cast_lt]
  have hmul : decide (uval a * uval b ≥ 2 ^ 16) = true ↔ 2 ^ 16 ≤ a.toNat * b.toNat := by
    rw [decide_eq_true_iff, uval, uval]
    norm_cast
  cases f with
  | add | addu => exact hadd
  | sub | subu => exact hsub
  | mul | mulu => exact hmul
  | sll =>
    rw [AluFn.carry, shifted_out_iff, shiftAmount_eq]
    exact Iff.rfl
  | srl | sra =>
    rw [AluFn.carry, shifted_out_iff, shiftAmount_eq]
    exact Iff.rfl
  | slt | sltu | and | or | xor | nor | rotl => exact iff_of_false Bool.false_ne_true id

theorem overflow_iff (f : AluFn) (a b : Word) :
    f.overflow a b (f.result a b) = true ↔ conventionalOverflow f a.toInt b.toInt := by
  cases f with
  | add | addu =>
    simp only [AluFn.overflow, AluFn.result, conventionalOverflow, sumOf_eq, Bool.and_eq_true_iff,
      beq_iff_eq, bne_iff_ne]
    exact sum_overflows_iff a b
  | sub | subu =>
    simp only [AluFn.overflow, AluFn.result, conventionalOverflow, differenceOf_eq, Bool.and_eq_true_iff,
      bne_iff_ne]
    exact difference_overflows_iff a b
  | mul => exact decide_eq_true_iff
  | slt | mulu | sltu | and | or | xor | nor | sll | srl | sra | rotl =>
    exact iff_of_false Bool.false_ne_true id

/-! ## The bits of `fl` -/

/-- The named flags of a state that holds the conventional flags, which fill the low five bits. -/
theorem flags_of_conventional {f : AluFn} {a b r : Word} {t : State} (h : t.fl = conventionalFlags f a b r) :
    t.flag .zf = decide (r = 0) ∧ t.flag .sf = r.getLsbD 15 ∧ t.flag .cf = f.carry a b ∧
      t.flag .of = f.overflow a b r ∧ t.flag .eq = decide (a = b) ∧ t.fl.toNat < 2 ^ 5 := by
  simp only [State.flag, h, conventionalFlags, Flag.bit]
  generalize decide (a = b) = e, f.overflow a b r = o, f.carry a b = c, r.getLsbD 15 = n,
    decide (r = 0) = z
  revert e o c n z
  decide

/-! ## ALU instructions and the others -/

theorem aluOperation_registerForm (f : AluFn) (rd rs : Reg) (s : State) :
    aluOperation (registerForm f rd rs) s = some (f, rd, s.reg rs) := by
  cases f <;> rfl

theorem aluOperation_immediateForm (f : AluFn) (rd : Reg) (imm : BitVec 6) (s : State) :
    aluOperation (immediateForm f rd imm) s = some (f, rd, immediateOperand f imm) := by
  cases f <;> rfl

/-- An instruction is an ALU operation on its operands, or leaves in `fl` a free value or what was there. -/
theorem aluOperation_cases (cfg : Config) (i : Instr) (s : State) :
    (∃ f rd b, aluOperation i s = some (f, rd, b) ∧ execWith cfg i s = aluInto cfg f rd b s) ∨
      (aluOperation i s = none ∧ ∀ t, execWith cfg i s = .next t → t.fl = flagValue cfg s s.fl) := by
  cases i using Instr.byForm with
  | register f rd rs =>
    exact .inl ⟨f, rd, _, aluOperation_registerForm f rd rs s, execWith_registerForm cfg f rd rs s⟩
  | immediate f rd imm =>
    exact .inl ⟨f, rd, _, aluOperation_immediateForm f rd imm s, execWith_immediateForm cfg f rd imm s⟩
  | lw rd rs offset =>
    refine .inr ⟨rfl, fun t h => ?_⟩
    rw [execWith_lw] at h
    obtain ⟨ea, hfault⟩ | ⟨v, hnext⟩ := loadWord_cases cfg rd rs offset s
    · simp [hfault] at h
    · cases hnext.symm.trans h
      rfl
  | sw rd rs offset =>
    refine .inr ⟨rfl, fun t h => ?_⟩
    rw [execWith_sw] at h
    obtain ⟨ea, hfault⟩ | ⟨m, hnext⟩ := storeWord_cases cfg rd rs offset s
    · simp [hfault] at h
    · cases hnext.symm.trans h
      rfl
  | j target | jal target => exact .inr ⟨rfl, by rintro _ ⟨⟩; rfl⟩
  | jr rd | mfhi rd | mflo rd | mthi rd | mtlo rd => exact .inr ⟨rfl, by rintro _ ⟨⟩; rfl⟩
  | jalr rd rs => exact .inr ⟨rfl, by rintro _ ⟨⟩; rfl⟩
  | beq rd rs offset | bne rd rs offset | lb rd rs offset | sb rd rs offset =>
    exact .inr ⟨rfl, by rintro _ ⟨⟩; rfl⟩

theorem flagValue_of_conventional {cfg : Config} (h : cfg.flagModel = .conventional) (s : State) (v : Word) :
    flagValue cfg s v = v := by
  rw [flagValue, h]

/-- Under the conventional model an ALU operation that completes leaves the flags of its operands. -/
theorem fl_of_aluInto {cfg : Config} (hconv : cfg.flagModel = .conventional) {f : AluFn} {rd : Reg} {b : Word}
    {s t : State} (h : aluInto cfg f rd b s = .next t) :
    t.fl = conventionalFlags f (s.reg rd) b (f.result (s.reg rd) b) := by
  by_cases hrefused : f.isShift = true ∧ cfg.shiftAmount = .refuse ∧ 15 < b.toNat
  · rw [aluInto_of_refused hrefused] at h
    cases h
  · rw [aluInto_of_accepted hrefused] at h
    cases h
    exact flagValue_of_conventional hconv _ _

theorem flagModelClause (cfg : Config) : FlagModelClause cfg := by
  refine ⟨fun model i s => execWith_outcomesAgree cfg model s s.fl s.draws i, fun hconv i s t h => ?_,
    fun _ => rfl⟩
  obtain ⟨f, rd, b, hop, hexec⟩ | ⟨hnone, hfl⟩ := aluOperation_cases cfg i s
  · refine ⟨fun hnone => by simp [hop] at hnone, ?_⟩
    rintro g rd' b' hop' r rfl
    obtain ⟨rfl, rfl, rfl⟩ : f = g ∧ rd = rd' ∧ b = b' := by simpa [hop] using hop'
    obtain ⟨hzf, hsf, hcf, hof, heq, hlt⟩ := flags_of_conventional (fl_of_aluInto hconv (hexec ▸ h))
    rw [hzf, hcf, hof, heq, decide_eq_true_iff, decide_eq_true_iff]
    exact ⟨Iff.rfl, hsf, carry_iff f _ b, overflow_iff f _ b, Iff.rfl, hlt⟩
  · refine ⟨fun _ => (hfl t h).trans (flagValue_of_conventional hconv s s.fl), fun f rd b hop => ?_⟩
    simp [hnone] at hop

/-! ## The statement -/

/-- Settles O51, clause by clause. -/
theorem parametersChangeWhatTheyName : Obligations.ParametersChangeWhatTheyName := fun cfg =>
  ⟨addrBitsClause cfg, byteOrderClause cfg, memOrgClause cfg, misalignedDataClause cfg,
    misalignedFetchClause cfg, shiftAmountClause cfg, jalrLinkClause cfg, rfl, endOfRunClause cfg,
    flagModelClause cfg, reservedFieldClause cfg, memInitClause cfg⟩

end Sys2Proof.Machine
